-- ==== Sys2Proof/Word.lean ====
section
/-! DEFINITION. The word types of the UVC and the fields of its command word (00_scope.md R5, R6; 30_encoding.md R70, R74). -/

namespace Sys2Proof

/-- A wire byte or a command word: bit 0 is the least significant bit (R5). -/
abbrev Byte := BitVec 8

/-- IN_LEN, OUT_LEN, CONSUMED, MAX.LIMIT and the number of a finite budget: 16 bits (R22, R27, R36). -/
abbrev Half := BitVec 16

/-- The MAX register as the host writes and reads it whole (R22). -/
abbrev MaxWord := BitVec 32

/-- The DIR field of the command word, bit 4 (R70). -/
inductive Dir where
  | encode
  | decode
  deriving DecidableEq, Repr

/-- The legal values of the BSEL field of the command word, bits [1:0] (R74). -/
inductive BSel where
  | maxReg
  | unbounded
  | fixed5
  deriving DecidableEq, Repr

end Sys2Proof
end

