-- ==== Sys2Proof/Syntax.lean ====
section
/-! DEFINITION. The command set UVC-CMD version 1: one constructor per row of spec/opcode_table.json (30_encoding.md R72). -/

namespace Sys2Proof

/-- The six commands. None takes an operand in the command word: all operands are in registers (R71). -/
inductive Instr where
  | enc     -- encode(max, value)
  | encu    -- encode(value)
  | enc32   -- encode32(value)
  | dec     -- decode(max, octets)
  | decu    -- decode(octets)
  | dec32   -- decode32(octets)
  deriving DecidableEq, Repr

end Sys2Proof
end

