-- ==== Sys2Proof/Decode.lean ====
section
/-! DEFINITION. The decoder of the command word, total on every byte and rejecting by name, and the encoder written from the same
tables (30_encoding.md R70 to R74). -/

namespace Sys2Proof

/-- Why a word is no command (R73). -/
inductive DecodeError where
  | z1NotZero        -- CMD[7:5] is not 000
  | z2NotZero        -- CMD[3:2] is not 00
  | noBoundSelect    -- BSEL is 00
  deriving DecidableEq, Repr

/-- Field Z1, bits [7:5] (R70). -/
def fieldZ1 (c : Byte) : BitVec 3 := c.extractLsb' 5 3

/-- Field DIR, bit 4 (R70). -/
def fieldDir (c : Byte) : BitVec 1 := c.extractLsb' 4 1

/-- Field Z2, bits [3:2] (R70). -/
def fieldZ2 (c : Byte) : BitVec 2 := c.extractLsb' 2 2

/-- Field BSEL, bits [1:0] (R70). -/
def fieldBSel (c : Byte) : BitVec 2 := c.extractLsb' 0 2

/-- DIR: 0 encode, 1 decode (R70). -/
def Dir.ofField (d : BitVec 1) : Dir := if d = 0 then .encode else .decode

/-- BSEL: 01 MAXREG, 10 UNBOUNDED, 11 FIXED5, 00 illegal (R74). -/
def BSel.ofField (b : BitVec 2) : Option BSel :=
  if b = 1 then some .maxReg
  else if b = 2 then some .unbounded
  else if b = 3 then some .fixed5
  else none

/-- The command of a direction and a bound select (the rows of R72). -/
def Instr.ofFields : Dir → BSel → Instr
  | .encode, .maxReg => .enc
  | .encode, .unbounded => .encu
  | .encode, .fixed5 => .enc32
  | .decode, .maxReg => .dec
  | .decode, .unbounded => .decu
  | .decode, .fixed5 => .dec32

/-- Decoding a word written to CMD: every one of the 256 words is a command or is rejected by name (R73). -/
def decode (c : Byte) : Except DecodeError Instr :=
  if fieldZ1 c ≠ 0 then .error .z1NotZero
  else if fieldZ2 c ≠ 0 then .error .z2NotZero
  else match BSel.ofField (fieldBSel c) with
    | none => .error .noBoundSelect
    | some b => .ok (Instr.ofFields (Dir.ofField (fieldDir c)) b)

/-- The DIR of a command (column DIR of R72). -/
def Instr.dir : Instr → Dir
  | .enc => .encode
  | .encu => .encode
  | .enc32 => .encode
  | .dec => .decode
  | .decu => .decode
  | .dec32 => .decode

/-- The bound select of a command (column BSEL of R72). -/
def Instr.bsel : Instr → BSel
  | .enc => .maxReg
  | .encu => .unbounded
  | .enc32 => .fixed5
  | .dec => .maxReg
  | .decu => .unbounded
  | .dec32 => .fixed5

/-- The bit of a direction (R70). -/
def Dir.toField : Dir → BitVec 1
  | .encode => 0
  | .decode => 1

/-- The bits of a bound select (R74). -/
def BSel.toField : BSel → BitVec 2
  | .maxReg => 1
  | .unbounded => 2
  | .fixed5 => 3

/-- The word of a command: `0 0 0 D 0 0 B B`, most significant bit first (R70). -/
def encode (i : Instr) : Byte :=
  ((0 : BitVec 3) ++ i.dir.toField ++ (0 : BitVec 2) ++ i.bsel.toField)

/-- The command in the first `nbits` bits of a table word: a command is exactly one word of 8 bits (R71). -/
def decodeTableWord (nbits w : Nat) : Option Instr :=
  match decode (BitVec.ofNat 8 (w % 2 ^ nbits)) with
  | .ok i => some i
  | .error _ => none

end Sys2Proof
end

