-- ==== Sys2Proof/Config.lean ====
section
/-! DEFINITION. The implementation parameters of the UVC, its fixed constants, and the free values (00_scope.md R2 to R4, R21). -/

namespace Sys2Proof

/-- The OPEN parameters a register-level model takes (R2, P1, P2): the value width W and the input buffer depth.
REG_MAP and CYCLES_PER_STEP are left out (00_scope.md section 3.2; log 16). -/
structure Params where
  w : Nat
  ibufDepth : Nat
  deriving DecidableEq, Repr

/-- OBUF_DEPTH = ceil(W / 7), derived (R2, D4). -/
def Params.obufDepth (p : Params) : Nat := (p.w + 6) / 7

/-- The reference configuration W = 64, IBUF_DEPTH = 16 (R4). -/
def Params.reference : Params := { w := 64, ibufDepth := 16 }

/-- The largest W whose longest encoding, 65535 bytes, a 16-bit register can count (R22; D5 names it). W may be larger (R2; log 2). -/
abbrev Config.countableWidth : Nat := 458745

/-- A bound or a budget: `Unb` or `Fin k`, 0 <= k <= 65535 (R8, R36). -/
inductive Bound where
  | unb
  | fin (k : Half)
  deriving DecidableEq, Repr, Inhabited

/-- FIXED_MAX: the bound of ENC32 and DEC32 (R2). -/
def Config.fixedMax : Half := 5

/-- Who takes a step: the world outside (host accesses and resets, R20) or the sequencer. -/
inductive Agent where
  | external
  | sequencer
  deriving DecidableEq, Repr, Inhabited

/-- FREE VALUE: how many turns the world outside takes before the sequencer's, where both have a step and `State.schedule` is exhausted
(R61, R172, U3, U4; log 8). -/
opaque Config.freeWait : Nat → Nat

/-- FREE VALUE: what OUT_LEN holds after an encode whose count of bytes does not fit its 16 bits, which takes W above 458745 (R6, R22;
log 2). -/
opaque Config.freeOutLen : Nat → Half

/-- FREE VALUE: what a reset event leaves in ACC, before it is cut to W bits (R202, U2; log 5). -/
opaque Config.freeAcc : Nat → Nat

/-- FREE VALUE: what a reset event leaves in BUD (R202, U2; log 5). -/
opaque Config.freeBud : Nat → Bound

/-- FREE VALUE: what a reset event leaves in IDX (R202, U2; log 5). -/
opaque Config.freeIdx : Nat → Half

/-- FREE VALUE: what a reset event leaves in NB (R202, U2; log 5). -/
opaque Config.freeNb : Nat → Nat

end Sys2Proof
end

