-- ==== Sys2Proof/Machine/State.lean ====
section
/-! DEFINITION. The state of one UVC with the world outside it, as plain data, and its value after reset
(10_state.md R22 to R38, 70_reset_and_hazards.md R200). -/

namespace Sys2Proof.Machine

/-- STATUS.STATE (R24). -/
inductive CmdState where
  | idle
  | busy
  | ok
  | err
  deriving DecidableEq, Repr

/-- CAUSE.CODE (R180). Codes 7 to 15 are reserved and never produced, so the type does not contain them (X4). -/
inductive Cause where
  | none
  | encBound
  | decBound
  | decTrunc
  | decCapacity
  | contract
  | illegalCmd
  deriving DecidableEq, Repr

/-- PHASE, the sequencer's control state (R34). -/
inductive Phase where
  | none
  | encSize
  | encEmit
  | decStep
  deriving DecidableEq, Repr

/-- The storage of the MAX register: bits [30:16] have none (R27). -/
structure MaxReg where
  limit : Half
  unb : Bool
  deriving DecidableEq, Repr

/-- A byte buffer: the pairs (index, byte) of its WRITTEN bytes, indices strictly rising. An index that is not listed is
unwritten and reads as no value (R33, R203). -/
abbrev Memory := List Host.Cell

/-- The two byte buffers (R32). -/
inductive Buffer where
  | input
  | output
  deriving DecidableEq, Repr

/-- All the state the spec gives one UVC (R22, R32 to R38, R40). CMD has no storage (R23). The registers of the OPEN width W (VALUE_IN,
VALUE_OUT, ACC) are held as the non-negative integers R6 says every value is; that they stay below 2^W is in the invariant (log 3).
IDX and NB are counts, which 16 bits hold for every W up to 458745 (log 4). -/
structure Uvc where
  state : CmdState
  cause : Cause
  valueIn : Nat
  maxReg : MaxReg
  inLen : Half
  valueOut : Nat
  outLen : Half
  consumed : Half
  inBuf : Memory
  outBuf : Memory
  phase : Phase
  acc : Nat
  bud : Bound
  idx : Nat
  nb : Nat
  deriving DecidableEq, Repr

/-- A host write: the target and the value handed over, of the target's width (R164). Every register of R22 and every byte of the
two buffers is a target, the read-only ones too. -/
inductive HostWrite where
  | cmd (c : Byte)
  | status (v : Byte)
  | cause (v : Byte)
  | valueIn (v : Nat)
  | max (v : MaxWord)
  | inLen (v : Half)
  | valueOut (v : Nat)
  | outLen (v : Half)
  | consumed (v : Half)
  | inByte (i : Nat) (v : Byte)
  | outByte (i : Nat) (v : Byte)
  deriving DecidableEq, Repr

/-- A host read: its target (R166). -/
inductive HostRead where
  | cmd
  | status
  | cause
  | valueIn
  | max
  | inLen
  | valueOut
  | outLen
  | consumed
  | inByte (i : Nat)
  | outByte (i : Nat)
  deriving DecidableEq, Repr

/-- What the world outside does next: a host access (R164, R166), the host's `poll` (R81), or a reset (R200). -/
inductive Event where
  | write (w : HostWrite)
  | read (r : HostRead)
  | poll
  | reset
  deriving DecidableEq, Repr

/-- One UVC and the world outside it. `params` is configuration that no step changes (R21; log 1). `events`, `schedule`, `fresh` and
`readBack` are the model's own fields, not the spec's (log 5, 7, 8, 12). -/
structure State where
  params : Params
  uvc : Uvc
  events : List Event
  schedule : List Agent
  fresh : Nat
  readBack : List (HostRead × Nat)
  deriving DecidableEq, Repr

/-- Why the machine stops with a fault. -/
inductive Fault where
  /-- Raised by a decoder step or a host read that reads a byte not written since reset (R203). Safe: the hardware returns some byte. -/
  | unwrittenByte (b : Buffer) (i : Nat)
  /-- Raised by a sequencer access that breaks the requirement of R51 or R52, which no reachable state does (log 13). Safe. -/
  | indexOutsideBuffer (b : Buffer) (i : Nat)
  deriving DecidableEq, Repr

/-- Why the model gives no meaning. -/
inductive Refusal where
  /-- Raised by exec for a command without a meaning. No arm answers with it. Safe. -/
  | notModelled (mnemonic : String)
  /-- Raised for a host action that does not exist in the interface: a buffer index outside the buffer (R167), or a value that does
  not fit the register's W bits (R26, I1). Safe. -/
  | noSuchHostAction (e : Event)
  deriving DecidableEq, Repr

/-- The UVC right after reset (R22, R34, R200). ACC, BUD, IDX and NB have no reset value: their values here are a DESIGN CHOICE
(R202; log 5). -/
def Uvc.reset : Uvc where
  state := .idle
  cause := .none
  valueIn := 0
  maxReg := { limit := 0, unb := false }
  inLen := 0
  valueOut := 0
  outLen := 0
  consumed := 0
  inBuf := []
  outBuf := []
  phase := .none
  acc := 0
  bud := .fin 0
  idx := 0
  nb := 0

/-- A UVC of the configuration `p` right after reset, with nothing pending outside it. -/
def State.resetWith (p : Params) : State where
  params := p
  uvc := Uvc.reset
  events := []
  schedule := []
  fresh := 0
  readBack := []

/-- The machine right after reset, in the reference configuration (R4, R200; log 1). -/
def State.reset : State := State.resetWith Params.reference

end Sys2Proof.Machine
end

