-- ==== Sys2Proof/Machine/Operands.lean ====
section
/-! DEFINITION. The datapath of the UVC: the bound operand, bit extraction, group packing, byte unpacking, group assembly
(30_encoding.md R75, R76; 40_encoder.md R100 to R103; 41_decoder.md R130 to R134). -/

namespace Sys2Proof.Machine

/-- `BoundOf(BSEL, MAX)` (R75). -/
def boundOf (b : BSel) (m : MaxReg) : Bound :=
  match b with
  | .maxReg => if m.unb then .unb else .fin m.limit
  | .unbounded => .unb
  | .fixed5 => .fin Config.fixedMax

/-- `bitlen(V)`: the number of binary digits of V without leading zeros, 0 for V = 0 (R7). -/
def bitlen (v : Nat) : Nat := if v = 0 then 0 else Nat.log2 v + 1

/-- `nbytes(V) = max(1, ceil(bitlen(V) / 7))` (R101). -/
def nbytes (v : Nat) : Nat := max 1 ((bitlen v + 6) / 7)

/-- `group(V, k) = (V >> 7k) & 0x7F`, group 0 the least significant (R100, R79). -/
def group (v : Nat) (k : Nat) : BitVec 7 := BitVec.ofNat 7 ((v >>> (7 * k)) &&& 0x7F)

/-- `cont(i, n)`: 1 on every byte of an n-byte encoding but the last (R102). -/
def cont (i n : Nat) : Bool := decide (i < n - 1)

/-- `pack(c, g) = (c << 7) | g` (R103). -/
def pack (c : Bool) (g : BitVec 7) : Byte := ((BitVec.ofBool c).zeroExtend 8 <<< 7) ||| g.zeroExtend 8

/-- `C(b)`, the continuation bit b[7] (R76, R130). -/
def contBit (b : Byte) : Bool := b.getLsbD 7

/-- `D(b)`, the data group b[6:0] (R76, R130). -/
def dataGroup (b : Byte) : BitVec 7 := b.extractLsb' 0 7

/-- `assemble(acc, b) = (acc << 7) | D(b)` (R131). -/
def assemble (acc : Nat) (b : Byte) : Nat := (acc <<< 7) ||| (dataGroup b).toNat

/-- The capacity check: `ACC >= 2^(W-7)` (R134). -/
def capacityExceeded (p : Params) (acc : Nat) : Bool := 2 ^ (p.w - 7) ≤ acc

/-- Whether an encoding of n bytes passes the bound: `B == Fin(k) and n > k` (R105, R106). -/
def exceedsBound (b : Bound) (n : Nat) : Bool :=
  match b with
  | .unb => false
  | .fin k => k.toNat < n

/-- `OUT_LEN <- NB` (R107). A count outside the 16 bits of OUT_LEN, which R6 says does not arise and W above 458745 allows, leaves a free
value (log 2). -/
def outLenOf (n : Nat) : Half := if n < 2 ^ 16 then BitVec.ofNat 16 n else Config.freeOutLen n

/-- Whether the budget is spent: `bud == Fin(0)` (R135, R137). -/
def budgetSpent (b : Bound) : Bool :=
  match b with
  | .unb => false
  | .fin k => k = 0

/-- `dec(bud)`; R133 applies it to `Fin(k)` only for k >= 1. -/
def decBudget (b : Bound) : Bound :=
  match b with
  | .unb => .unb
  | .fin k => .fin (k - 1)

end Sys2Proof.Machine
end

