-- ==== Sys2Proof/Machine/Ops.lean ====
section
/-! DEFINITION. The shared operations: the byte buffers, MemRead and MemWrite, the two ways a command ends, the issue of a command, the
gate every host write passes (20_memory.md R50 to R52; 42_control.md R160 to R165, R170; 60_exceptions.md R181). -/

namespace Sys2Proof.Machine

/-- The byte at an index, none where it has not been written (R33). -/
def Memory.read : Memory → Nat → Option Byte
  | [], _ => none
  | (j, b) :: m, i => if i = j then some b else Memory.read m i

/-- Writing a byte marks its index written (R33, R52). -/
def Memory.write : Memory → Nat → Byte → Memory
  | [], i, v => [(i, v)]
  | (j, b) :: m, i, v =>
    if i < j then (i, v) :: (j, b) :: m
    else if i = j then (i, v) :: m
    else (j, b) :: Memory.write m i v

/-- The canonical form of a buffer: indices strictly rising. -/
def Memory.wf : Memory → Bool
  | [] => true
  | [_] => true
  | (i, _) :: (j, b) :: m => i < j && Memory.wf ((j, b) :: m)

/-- Every written index is below the depth of the buffer (R50). -/
def Memory.below (m : Memory) (depth : Nat) : Bool := m.all fun c => c.1 < depth

/-- `MemRead(IN, i, 1)`, the sequencer's only read (R51). A byte not written since reset has no value to give: a fault (R203). -/
def memRead (p : Params) (u : Uvc) (i : Nat) : Except Fault Byte :=
  if i < u.inLen.toNat ∧ u.inLen.toNat ≤ p.ibufDepth then
    match Memory.read u.inBuf i with
    | some b => .ok b
    | none => .error (.unwrittenByte .input i)
  else .error (.indexOutsideBuffer .input i)

/-- `MemWrite(OUT, i, 1, v)`, the sequencer's only write (R52). -/
def memWrite (p : Params) (u : Uvc) (i : Nat) (v : Byte) : Except Fault Uvc :=
  if i < p.obufDepth then .ok { u with outBuf := Memory.write u.outBuf i v }
  else .error (.indexOutsideBuffer .output i)

/-- `raise BadArgument(c)`: the UVC's only exception, taken as a state change; it writes exactly these six registers (R181). There is
no handler, no saved state and no return (R186). -/
def raiseBadArgument (c : Cause) (u : Uvc) : Uvc :=
  { u with state := .err, cause := c, valueOut := 0, outLen := 0, consumed := 0, phase := .none }

/-- `complete_ok()` (R170). CAUSE.CODE stays NONE. -/
def completeOk (u : Uvc) : Uvc := { u with state := .ok, phase := .none }

/-- The phase a command starts in (the last line of R160). -/
def startPhase : Dir → Phase
  | .encode => .encSize
  | .decode => .decStep

/-- What the issue of a legal command writes (the last nine lines of R160); VALUE_IN, MAX, IN_LEN, IN and OUT are never written. -/
def startCommand (d : Dir) (b : BSel) (u : Uvc) : Uvc :=
  { u with
    valueOut := 0
    outLen := 0
    consumed := 0
    cause := .none
    bud := boundOf b u.maxReg
    idx := 0
    acc := 0
    state := .busy
    phase := startPhase d }

/-- The issue of a legal command with direction `d` and bound select `b` (R160), after the input-length contract of a decode (R162). -/
def issue (p : Params) (d : Dir) (b : BSel) (u : Uvc) : Uvc :=
  if d = .decode ∧ p.ibufDepth < u.inLen.toNat then raiseBadArgument .contract u
  else startCommand d b u

/-- The gate of every host write: while STATUS.STATE = BUSY the write is dropped, whatever its target (R165). -/
def State.hostStore (f : Uvc → Uvc) (s : State) : State :=
  if s.uvc.state = .busy then s else { s with uvc := f s.uvc }

end Sys2Proof.Machine
end

