-- ==== Sys2Proof/Machine/Decoder.lean ====
section
/-! DEFINITION. The decoder: the issue of DEC, DECU and DEC32, and the sequencer's DEC_STEP step (41_decoder.md R137 to R140). -/

namespace Sys2Proof.Machine

/-- DEC: the host's write of 0x11 to CMD, bound from MAX (R138, R160, R162). -/
def execDec (s : State) : Host.Outcome State Fault Refusal :=
  .next (s.hostStore (issue s.params .decode .maxReg))

/-- DECU: the host's write of 0x12 to CMD, no bound (R139, R160, R162). -/
def execDecu (s : State) : Host.Outcome State Fault Refusal :=
  .next (s.hostStore (issue s.params .decode .unbounded))

/-- DEC32: the host's write of 0x13 to CMD, bound 5 (R140, R160, R162). -/
def execDec32 (s : State) : Host.Outcome State Fault Refusal :=
  .next (s.hostStore (issue s.params .decode .fixed5))

/-- What the DEC_STEP step does with the byte b it has read, once the capacity check has passed (R137). -/
def consumeByte (u : Uvc) (b : Byte) : Uvc :=
  if contBit b then
    { u with acc := assemble u.acc b, idx := u.idx + 1, bud := decBudget u.bud }
  else
    completeOk { u with
      acc := assemble u.acc b
      idx := u.idx + 1
      valueOut := assemble u.acc b
      consumed := BitVec.ofNat 16 (u.idx + 1) }

/-- The DEC_STEP step: one byte, with the checks in the order DEC_BOUND, DEC_TRUNC, DEC_CAPACITY (R137, R184). -/
def decStep (p : Params) (u : Uvc) : Except Fault Uvc :=
  if budgetSpent u.bud then .ok (raiseBadArgument .decBound u)
  else if u.idx = u.inLen.toNat then .ok (raiseBadArgument .decTrunc u)
  else match memRead p u u.idx with
    | .error f => .error f
    | .ok b =>
      if capacityExceeded p u.acc then .ok (raiseBadArgument .decCapacity u)
      else .ok (consumeByte u b)

end Sys2Proof.Machine
end

