-- ==== Sys2Proof/Machine/Encoder.lean ====
section
/-! DEFINITION. The encoder: the issue of ENC, ENCU and ENC32, and the sequencer's ENC_SIZE and ENC_EMIT steps (40_encoder.md R106 to R110). -/

namespace Sys2Proof.Machine

/-- ENC: the host's write of 0x01 to CMD, bound from MAX (R108, R160). -/
def execEnc (s : State) : Host.Outcome State Fault Refusal :=
  .next (s.hostStore (issue s.params .encode .maxReg))

/-- ENCU: the host's write of 0x02 to CMD, no bound (R109, R160). -/
def execEncu (s : State) : Host.Outcome State Fault Refusal :=
  .next (s.hostStore (issue s.params .encode .unbounded))

/-- ENC32: the host's write of 0x03 to CMD, bound 5 (R110, R160). -/
def execEnc32 (s : State) : Host.Outcome State Fault Refusal :=
  .next (s.hostStore (issue s.params .encode .fixed5))

/-- The ENC_SIZE step: count the bytes and check the bound before any byte is written (R106). -/
def encSizeStep (u : Uvc) : Uvc :=
  if exceedsBound u.bud (nbytes u.valueIn) then raiseBadArgument .encBound u
  else { u with nb := nbytes u.valueIn, idx := 0, phase := .encEmit }

/-- The byte the ENC_EMIT step writes at index i: the most significant group first (R107). -/
def emitByte (u : Uvc) (i : Nat) : Byte :=
  pack (cont i u.nb) (group u.valueIn (u.nb - 1 - i))

/-- The ENC_EMIT step: write one byte, and complete on the last (R107). -/
def encEmitStep (p : Params) (u : Uvc) : Except Fault Uvc :=
  match memWrite p u u.idx (emitByte u u.idx) with
  | .error f => .error f
  | .ok v =>
    if u.idx + 1 = u.nb then
      .ok (completeOk { v with idx := u.idx + 1, outLen := outLenOf u.nb })
    else .ok { v with idx := u.idx + 1 }

end Sys2Proof.Machine
end

