-- ==== Sys2Proof/Machine/Dispatch.lean ====
section
/-! DEFINITION. One arm per command: its issue, the atomic step that is the command's own (42_control.md R160). -/

namespace Sys2Proof.Machine

def exec (i : Instr) (s : State) : Host.Outcome State Fault Refusal :=
  match i with
  | .enc => Sys2Proof.Machine.execEnc s
  | .encu => Sys2Proof.Machine.execEncu s
  | .enc32 => Sys2Proof.Machine.execEnc32 s
  | .dec => Sys2Proof.Machine.execDec s
  | .decu => Sys2Proof.Machine.execDecu s
  | .dec32 => Sys2Proof.Machine.execDec32 s

end Sys2Proof.Machine
end

