-- ==== Sys2Proof/Machine/Flags.lean ====
section
/-! DEFINITION. The register images a host reads and writes: STATUS, CAUSE and MAX (10_state.md R24, R25, R27; 42_control.md R164,
R166; 60_exceptions.md R180). The UVC has no flags but STATUS.STATE and CAUSE.CODE (R41). -/

namespace Sys2Proof.Machine

/-- The value of STATUS.STATE (R24). -/
def CmdState.code : CmdState → BitVec 2
  | .idle => 0
  | .busy => 1
  | .ok => 2
  | .err => 3

/-- The value of CAUSE.CODE (R180). -/
def Cause.code : Cause → BitVec 4
  | .none => 0
  | .encBound => 1
  | .decBound => 2
  | .decTrunc => 3
  | .decCapacity => 4
  | .contract => 5
  | .illegalCmd => 6

/-- STATUS as read: `zext_8(STATE)` (R24, R166). -/
def statusWord (s : CmdState) : Byte := s.code.zeroExtend 8

/-- CAUSE as read: `zext_8(CODE)` (R25, R166). -/
def causeWord (c : Cause) : Byte := c.code.zeroExtend 8

/-- MAX as read: `(UNB << 31) | LIMIT`, bits [30:16] zero (R166). -/
def maxWord (m : MaxReg) : MaxWord := ((BitVec.ofBool m.unb).zeroExtend 32 <<< 31) ||| m.limit.zeroExtend 32

/-- What a write of a word leaves in MAX: LIMIT from [15:0], UNB from [31], the rest dropped (R164). -/
def maxOfWord (v : MaxWord) : MaxReg := { limit := v.extractLsb' 0 16, unb := v.getLsbD 31 }

end Sys2Proof.Machine
end

