-- ==== Sys2Proof/WellFormed.lean ====
section
/-! DEFINITION. What a well-formed command and a well-formed configuration is (30_encoding.md R71, 00_scope.md R2). -/

namespace Sys2Proof

/-- Every constructor of Instr is a well-formed command: a command word carries no operand to check (R71, R72). -/
def Instr.wf : Instr → Bool
  | .enc => true
  | .encu => true
  | .enc32 => true
  | .dec => true
  | .decu => true
  | .dec32 => true

/-- The range of the OPEN parameters: any W of at least 35, and an IBUF_DEPTH of 1 to 65535 (R2, R3). -/
def Params.wf (p : Params) : Bool :=
  35 ≤ p.w && 1 ≤ p.ibufDepth && p.ibufDepth ≤ 65535

end Sys2Proof
end

