-- ==== Sys2Proof/Machine/HostAccess.lean ====
section
/-! DEFINITION. The world outside the UVC: which host actions exist, host writes, host reads, the poll and the reset event
(42_control.md R160 to R167, 30_encoding.md R81, 70_reset_and_hazards.md R200 to R203). -/

namespace Sys2Proof.Machine

/-- A host write that exists in the interface of the configuration `p`: a value of W bits for a register of W bits, an index inside
the buffer (R26, R164, R167). -/
def HostWrite.wf (p : Params) : HostWrite → Bool
  | .valueIn v => v < 2 ^ p.w
  | .valueOut v => v < 2 ^ p.w
  | .inByte i _ => i < p.ibufDepth
  | .outByte i _ => i < p.obufDepth
  | .cmd _ => true
  | .status _ => true
  | .cause _ => true
  | .max _ => true
  | .inLen _ => true
  | .outLen _ => true
  | .consumed _ => true

/-- A host read that exists in the interface of the configuration `p` (R166, R167). -/
def HostRead.wf (p : Params) : HostRead → Bool
  | .inByte i => i < p.ibufDepth
  | .outByte i => i < p.obufDepth
  | .cmd => true
  | .status => true
  | .cause => true
  | .valueIn => true
  | .max => true
  | .inLen => true
  | .valueOut => true
  | .outLen => true
  | .consumed => true

/-- An event that exists in the interface of the configuration `p`. -/
def Event.wf (p : Params) : Event → Bool
  | .write w => w.wf p
  | .read r => r.wf p
  | .poll => true
  | .reset => true

/-- The effect of a host write on a register or byte other than CMD; the read-only targets have none (R164). -/
def storeOperand (w : HostWrite) (u : Uvc) : Uvc :=
  match w with
  | .cmd _ => u
  | .status _ => u
  | .cause _ => u
  | .valueIn v => { u with valueIn := v }
  | .max v => { u with maxReg := maxOfWord v }
  | .inLen v => { u with inLen := v }
  | .valueOut _ => u
  | .outLen _ => u
  | .consumed _ => u
  | .inByte i v => { u with inBuf := Memory.write u.inBuf i v }
  | .outByte _ _ => u

/-- A host write of the word c to CMD: the command it decodes to is executed; a word that is no command ends at once with ILLEGAL_CMD
(R160, R161). -/
def writeCommand (c : Byte) (s : State) : Host.Outcome State Fault Refusal :=
  match decode c with
  | .ok i => exec i s
  | .error _ => .next (s.hostStore (raiseBadArgument .illegalCmd))

/-- HostWrite (R164, R165). -/
def hostWrite (w : HostWrite) (s : State) : Host.Outcome State Fault Refusal :=
  match w with
  | .cmd c => writeCommand c s
  | w => .next (s.hostStore (storeOperand w))

/-- The byte a host read of a buffer returns; an unwritten one faults (R203). -/
def readByte (b : Buffer) (m : Memory) (i : Nat) : Except Fault Nat :=
  match Memory.read m i with
  | some v => .ok v.toNat
  | none => .error (.unwrittenByte b i)

/-- The value a host read returns (R166). -/
def readValue (r : HostRead) (u : Uvc) : Except Fault Nat :=
  match r with
  | .cmd => .ok 0
  | .status => .ok (statusWord u.state).toNat
  | .cause => .ok (causeWord u.cause).toNat
  | .valueIn => .ok u.valueIn
  | .max => .ok (maxWord u.maxReg).toNat
  | .inLen => .ok u.inLen.toNat
  | .valueOut => .ok u.valueOut
  | .outLen => .ok u.outLen.toNat
  | .consumed => .ok u.consumed.toNat
  | .inByte i => readByte .input u.inBuf i
  | .outByte i => readByte .output u.outBuf i

/-- HostRead: the value goes to the host, and the UVC is as it was (R58, R166; log 12). -/
def hostRead (r : HostRead) (s : State) : Host.Outcome State Fault Refusal :=
  match readValue r s.uvc with
  | .ok v => .next { s with readBack := (r, v) :: s.readBack }
  | .error f => .fault f

/-- The UVC after a reset event: the reset values of R200, every byte unwritten, and ACC, BUD, IDX, NB free (R202; log 5). -/
def resetUvc (p : Params) (n : Nat) : Uvc :=
  { Uvc.reset with
    acc := Config.freeAcc n % 2 ^ p.w
    bud := Config.freeBud n
    idx := (Config.freeIdx n).toNat
    nb := Config.freeNb n }

/-- The reset event; it may occur in any state, and aborts a command in progress (R200, R201). -/
def resetEvent (s : State) : State :=
  { s with uvc := resetUvc s.params s.fresh, fresh := s.fresh + 1 }

/-- The effect of an event that exists in the interface, with the events after it pending. The host's `poll` reads STATUS, and polls
again while it reads BUSY (R81; log 11). -/
def runEvent (e : Event) (s : State) : Host.Outcome State Fault Refusal :=
  match e with
  | .write w => hostWrite w s
  | .read r => hostRead r s
  | .poll =>
    if s.uvc.state = .busy then hostRead .status { s with events := .poll :: s.events }
    else hostRead .status s
  | .reset => .next (resetEvent s)

/-- The turn of the world outside: its next event happens. A host action that does not exist in the interface is refused (R167; log 14). -/
def externalTurn (s : State) : Host.Outcome State Fault Refusal :=
  match s.events with
  | [] => .next s
  | e :: rest => if e.wf s.params then runEvent e { s with events := rest } else .refused (.noSuchHostAction e)

end Sys2Proof.Machine
end

