-- ==== Sys2Proof/Machine/Sequencer.lean ====
section
/-! DEFINITION. The sequencer: the step PHASE names (10_state.md R34, 42_control.md R171), and k of its steps. -/

namespace Sys2Proof.Machine

/-- One sequencer step. With PHASE = NONE the sequencer has no step and the UVC is as it was (R171, R194). -/
def seqStep (p : Params) (u : Uvc) : Except Fault Uvc :=
  match u.phase with
  | .none => .ok u
  | .encSize => .ok (encSizeStep u)
  | .encEmit => encEmitStep p u
  | .decStep => decStep p u

/-- `k` sequencer steps in a row, stopping at the first fault. -/
def seqRun (p : Params) : Nat → Uvc → Except Fault Uvc
  | 0, u => .ok u
  | k + 1, u =>
    match seqStep p u with
    | .ok v => seqRun p k v
    | .error f => .error f

/-- The sequencer's turn in the machine. -/
def sequencerTurn (s : State) : Host.Outcome State Fault Refusal :=
  match seqStep s.params s.uvc with
  | .ok u => .next { s with uvc := u }
  | .error f => .fault f

end Sys2Proof.Machine
end

