-- ==== Sys2Proof/Machine/Schedule.lean ====
section
/-! DEFINITION. Which agent moves next (20_memory.md R61, 42_control.md R171, R172), and how a command word is put where the next step
finds it. -/

namespace Sys2Proof.Machine

/-- The world outside has a step when an event is pending. -/
def State.externalReady (s : State) : Bool := !s.events.isEmpty

/-- The sequencer has a step exactly when PHASE is not NONE (R171). -/
def State.sequencerReady (s : State) : Bool := s.uvc.phase ≠ .none

/-- How many turns the world outside still takes before the sequencer's, at the `n`-th free choice: a free wait is counted down to 0, and
the next one follows it. -/
def waitAt : Nat → Nat
  | 0 => Config.freeWait 0
  | n + 1 =>
    match waitAt n with
    | 0 => Config.freeWait (n + 1)
    | k + 1 => k

/-- Who has the turn at the `n`-th free choice: every order in which the sequencer's turn always comes again, and no other (R61, R172;
log 8). -/
def freeTurn (n : Nat) : Agent := if waitAt n = 0 then .sequencer else .external

/-- Who moves next, and the state with that choice used up. Where both agents have a step the order is free (R61): `schedule` says who
moves, and once it is exhausted the turns are free, under the weak fairness of R172 (log 8). -/
def chooseTurn (s : State) : Option Agent × State :=
  match s.externalReady, s.sequencerReady with
  | false, false => (none, s)
  | true, false => (some .external, s)
  | false, true => (some .sequencer, s)
  | true, true =>
    match s.schedule with
    | a :: rest => (some a, { s with schedule := rest })
    | [] => (some (freeTurn s.fresh), { s with fresh := s.fresh + 1 })

/-- Let the chosen agent move. With no step on either side the UVC is quiescent and its state holds (R171, R194). -/
def takeTurn (c : Option Agent × State) : Host.Outcome State Fault Refusal :=
  match c with
  | (none, s) => .next s
  | (some .external, s) => externalTurn s
  | (some .sequencer, s) => sequencerTurn s

/-- The state in which the next step is the host's write of the word c to CMD (log 15). -/
def State.withCommand (s : State) (c : Byte) : State :=
  { s with
    events := .write (.cmd c) :: s.events
    schedule := if s.sequencerReady then .external :: s.schedule else s.schedule }

end Sys2Proof.Machine
end

