-- ==== Sys2Proof/Machine/Step.lean ====
section
/-! DEFINITION. One step of the UVC with the world outside it: one atomic step of one agent (20_memory.md R57, R61). -/

namespace Sys2Proof.Machine

/-- One atomic step of the agent whose turn it is. -/
def step (s : State) : Host.Outcome State Fault Refusal := takeTurn (chooseTurn s)

/-- The state in which the next step issues the command word `w`: the UVC executes no program, so its "fetch" is the host's write to
CMD (R23, R40, R59; log 15). -/
def State.withFetchWord (s : State) (nbits w : Nat) : State :=
  s.withCommand (BitVec.ofNat 8 (w % 2 ^ nbits))

end Sys2Proof.Machine
end

