-- ==== Sys2Proof/Machine/Functions.lean ====
section
/-! DEFINITION. The wire format and the command-level functions of the two algorithms, apart from any machine state: Val, EncBytes,
EncodeFn, DecodeFn, the document's own encoder loop, and the values each length and each bound admits (30_encoding.md R77, R78;
40_encoder.md R104, R105, R112, R113; 41_decoder.md R135). -/

namespace Sys2Proof.Machine

/-- A well-formed uintvar: at least one byte, continuation bit 1 on every byte but the last, 0 on the last (R77). -/
def wellFormedUintvar : List Byte → Bool
  | [] => false
  | [b] => !contBit b
  | b :: c :: rest => contBit b && wellFormedUintvar (c :: rest)

/-- `Val`: the sum of D(b_i) << 7 (n - 1 - i), where n - 1 - i bytes follow b_i (R77). -/
def uintvarVal : List Byte → Nat
  | [] => 0
  | b :: rest => ((dataGroup b).toNat <<< (7 * rest.length)) + uintvarVal rest

/-- The length a reader finds: one plus the index of the first byte with continuation bit 0; none where there is no such byte (R78). -/
def uintvarLength : List Byte → Option Nat
  | [] => none
  | b :: rest => if contBit b then (uintvarLength rest).map (· + 1) else some 1

/-- `EncBytes(V)`, most significant group first (R104). -/
def encBytes (v : Nat) : List Byte :=
  (List.range (nbytes v)).map fun i => pack (cont i (nbytes v)) (group v (nbytes v - 1 - i))

/-- `EncodeFn(B, V)` (R105). -/
def encodeFn (b : Bound) (v : Nat) : Except Cause (List Byte) :=
  if exceedsBound b (nbytes v) then .error .encBound else .ok (encBytes v)

/-- The loop of `DecodeFn` on the bytes not yet read, with the accumulator, the count of bytes assembled and the budget. Its result is the
value and the bytes consumed, or the cause and the bytes assembled before the failing pass (R135). -/
def decodeLoop (p : Params) (acc : Nat) (i : Nat) (bud : Bound) : List Byte → Except (Cause × Nat) (Nat × Nat)
  | [] => if budgetSpent bud then .error (.decBound, i) else .error (.decTrunc, i)
  | b :: rest =>
    if budgetSpent bud then .error (.decBound, i)
    else if capacityExceeded p acc then .error (.decCapacity, i)
    else if contBit b then decodeLoop p (assemble acc b) (i + 1) (decBudget bud) rest
    else .ok (assemble acc b, i + 1)

/-- `DecodeFn(B, L)` with the count of bytes assembled on a failure, which R143 speaks of. -/
def decodeRun (p : Params) (b : Bound) (l : List Byte) : Except (Cause × Nat) (Nat × Nat) :=
  decodeLoop p 0 0 b l

/-- `DecodeFn(B, L)`: the value and the bytes consumed, or the cause (R135). -/
def decodeFn (p : Params) (b : Bound) (l : List Byte) : Except Cause (Nat × Nat) :=
  match decodeRun p b l with
  | .ok r => .ok r
  | .error e => .error e.1

/-- The document's construction: while the remaining value is nonzero or the accumulator is still empty, prepend the least significant
group, aborting if one more byte would exceed the bound (R112, R105). The fuel bounds the passes. -/
def documentLoop (b : Bound) : Nat → Nat → List Byte → Except Cause (List Byte)
  | 0, _, acc => .ok acc
  | fuel + 1, v, acc =>
    if v = 0 ∧ acc ≠ [] then .ok acc
    else if exceedsBound b (acc.length + 1) then .error .encBound
    else documentLoop b fuel (v >>> 7) (pack (!acc.isEmpty) (group v 0) :: acc)

/-- The document's encoder; one pass per group, so `bitlen v + 1` passes are enough (R112). -/
def documentEncode (b : Bound) (v : Nat) : Except Cause (List Byte) := documentLoop b (bitlen v + 1) v []

/-- The values R113 says take exactly `n` bytes: those from 2^(7(n-1)) up to, not including, 2^(7n), and 0 for n = 1. -/
def byteRange (n v : Nat) : Prop := (v = 0 ∧ n = 1) ∨ (2 ^ (7 * (n - 1)) ≤ v ∧ v < 2 ^ (7 * n))

/-- The encoder accepts the value V within the bound B (R105, R113). -/
def encoderAccepts (b : Bound) (v : Nat) : Prop := ∃ l, encodeFn b v = .ok l

/-- The decoder accepts the canonical encoding of V within the bound B: it gives V and consumes all of it (R113, R142). -/
def decoderAccepts (p : Params) (b : Bound) (v : Nat) : Prop := decodeFn p b (encBytes v) = .ok (v, (encBytes v).length)

/-- The bytes a buffer holds from index 0 on are the list. -/
def Memory.holds (m : Memory) (l : List Byte) : Prop := ∀ i, i < l.length → Memory.read m i = l[i]?

end Sys2Proof.Machine
end

