-- ==== Sys2Proof/Machine/HostProgram.lean ====
section
/-! DEFINITION. The pseudo-instructions of the host notation, each expanded to the host events the UVC sees (30_encoding.md R81). -/

namespace Sys2Proof.Machine

/-- `issue M`: `wr CMD, code(M)` (R81). -/
def issueCommand (i : Instr) : Event := .write (.cmd (encode i))

/-- `MAXFIN(k)`: UNB = 0, LIMIT = k (R81). -/
def maxFin (k : Half) : MaxWord := k.zeroExtend 32

/-- `MAXUNB`: the MAX value 0x80000000 (R81). -/
def maxUnb : MaxWord := 0x80000000

/-- `ENCODE v, m` (R81). -/
def encodeMax (v : Nat) (m : MaxWord) : List Event :=
  [.write (.valueIn v), .write (.max m), issueCommand .enc, .poll]

/-- `ENCODE v` (R81). -/
def encodeUnbounded (v : Nat) : List Event := [.write (.valueIn v), issueCommand .encu, .poll]

/-- `ENCODE32 v` (R81). -/
def encode32 (v : Nat) : List Event := [.write (.valueIn v), issueCommand .enc32, .poll]

/-- The byte writes of `LOADIN`, from index i on. -/
def writeBytes : Nat → List Byte → List Event
  | _, [] => []
  | i, b :: rest => .write (.inByte i b) :: writeBytes (i + 1) rest

/-- `LOADIN [x0, ..., x(k-1)]`: the byte writes, then `wr IN_LEN, k` (R81). -/
def loadIn (l : List Byte) : List Event := writeBytes 0 l ++ [.write (.inLen (BitVec.ofNat 16 l.length))]

/-- `DECODE m, L` (R81). -/
def decodeMax (m : MaxWord) (l : List Byte) : List Event := loadIn l ++ [.write (.max m), issueCommand .dec, .poll]

/-- `DECODE L` (R81). -/
def decodeUnbounded (l : List Byte) : List Event := loadIn l ++ [issueCommand .decu, .poll]

/-- `DECODE32 L` (R81). -/
def decode32 (l : List Byte) : List Event := loadIn l ++ [issueCommand .dec32, .poll]

end Sys2Proof.Machine
end

