-- ==== Sys2Proof/Safety.lean ====
section
/-! DEFINITION. What a state that a run can reach looks like, and when a run is safe: the terms the claims are stated in
(10_state.md R39; 70_reset_and_hazards.md R203, R205, R210, R211). -/

namespace Sys2Proof.Machine

/-- The budget after `n` continuation bytes of a decode issued with the bound `b`: `Unb` stays, and `Fin k` has n + k = the bound (R39). -/
def budgetAfter (b : Bound) (n : Nat) (bud : Bound) : Prop :=
  match b, bud with
  | .unb, .unb => True
  | .fin m, .fin k => n + k.toNat = m.toNat
  | .unb, .fin _ => False
  | .fin _, .unb => False

/-- The five clauses of R39 as the rule writes them. The last one is kept by every step but a host write of IN_LEN below CONSUMED (R164;
log 17). -/
structure Uvc.R39 (p : Params) (u : Uvc) : Prop where
  busy_iff : u.state = .busy ↔ u.phase ≠ .none
  dec_step : u.phase = .decStep → u.idx ≤ u.inLen.toNat ∧ u.inLen.toNat ≤ p.ibufDepth ∧
    ∃ b, ∀ k, u.bud = .fin k → ∃ m, boundOf b u.maxReg = .fin m ∧ u.idx + k.toNat = m.toNat
  enc_emit : u.phase = .encEmit → 1 ≤ u.nb ∧ u.nb ≤ p.obufDepth ∧ u.idx < u.nb
  cause_iff : u.state ≠ .err ↔ u.cause = .none
  ok_le : u.state = .ok → u.outLen.toNat ≤ p.obufDepth ∧ u.consumed.toNat ≤ u.inLen.toNat

/-- The invariant of one UVC: the clauses of R39, with the one that fails replaced by the one that holds (log 17), and what R26, R29
to R32, R185, R210 and R211 say of the registers in between. -/
structure Uvc.Inv (p : Params) (u : Uvc) : Prop where
  valueIn_lt : u.valueIn < 2 ^ p.w
  valueOut_lt : u.valueOut < 2 ^ p.w
  acc_lt : u.acc < 2 ^ p.w
  inBuf_wf : Memory.wf u.inBuf = true
  inBuf_below : Memory.below u.inBuf p.ibufDepth = true
  outBuf_wf : Memory.wf u.outBuf = true
  outBuf_below : Memory.below u.outBuf p.obufDepth = true
  busy_iff : u.state = .busy ↔ u.phase ≠ .none
  cause_iff : u.state ≠ .err ↔ u.cause = .none
  results_clear : u.state ≠ .ok → u.valueOut = 0 ∧ u.outLen = 0 ∧ u.consumed = 0
  one_direction : u.outLen = 0 ∨ (u.valueOut = 0 ∧ u.consumed = 0)
  outLen_le : u.outLen.toNat ≤ p.obufDepth
  idx_le : u.idx < 2 ^ 16 ∨ u.idx ≤ p.obufDepth
  consumed_le : u.consumed.toNat ≤ p.ibufDepth
  out_encoding : u.outLen ≠ 0 → ∃ v, v < 2 ^ p.w ∧ u.outLen = outLenOf (nbytes v) ∧ Memory.holds u.outBuf (encBytes v)
  enc_size : u.phase = .encSize → u.idx = 0 ∧ ∃ b, u.bud = boundOf b u.maxReg
  enc_emit : u.phase = .encEmit → u.nb = nbytes u.valueIn ∧ u.idx < u.nb ∧ exceedsBound u.bud u.nb = false ∧
    ∀ j, j < u.idx → Memory.read u.outBuf j = (encBytes u.valueIn)[j]?
  dec_step : u.phase = .decStep → u.idx ≤ u.inLen.toNat ∧ u.inLen.toNat ≤ p.ibufDepth ∧ u.acc < 2 ^ (7 * u.idx) ∧
    (∃ b, budgetAfter (boundOf b u.maxReg) u.idx u.bud) ∧
    ∀ j, j < u.idx → ∃ b, Memory.read u.inBuf j = some b ∧ contBit b = true

/-- The invariant of the machine: a configuration in its range, and the UVC's own invariant. Nothing is asked of what the world outside
will do. -/
def State.Inv (s : State) : Prop := s.params.wf = true ∧ s.uvc.Inv s.params

/-- The host's duty before a decode: every byte of IN[0..IN_LEN-1] has been written since reset (R168, R205). -/
def Uvc.inputWritten (u : Uvc) : Prop := ∀ i, i < u.inLen.toNat → (Memory.read u.inBuf i).isSome = true

/-- An event that can neither stop a run nor reset the UVC: an existing action that reads no buffer byte and is no reset. -/
def Event.harmless (p : Params) (e : Event) : Bool :=
  match e with
  | .write w => w.wf p
  | .poll => true
  | .reset => false
  | .read r =>
    match r with
    | .inByte _ => false
    | .outByte _ => false
    | .cmd => true
    | .status => true
    | .cause => true
    | .valueIn => true
    | .max => true
    | .inLen => true
    | .valueOut => true
    | .outLen => true
    | .consumed => true

/-- A host read of a buffer byte asks for a byte written since reset (R203). -/
def Event.readsWritten (u : Uvc) (e : Event) : Bool :=
  match e with
  | .write _ => true
  | .poll => true
  | .reset => true
  | .read r =>
    match r with
    | .inByte i => (Memory.read u.inBuf i).isSome
    | .outByte i => (Memory.read u.outBuf i).isSome
    | .cmd => true
    | .status => true
    | .cause => true
    | .valueIn => true
    | .max => true
    | .inLen => true
    | .valueOut => true
    | .outLen => true
    | .consumed => true

/-- How many bytes of IN a decode that fails with the cause `e` after assembling `j` bytes reads: the failing step of DEC_CAPACITY has read
one more, and the other failing checks come before the read (R137). -/
def bytesReadOnFailure (e : Cause) (j : Nat) : Nat := if e = .decCapacity then j + 1 else j

/-- The most sequencer steps a command in progress can still take (R172). -/
def stepsLeft (p : Params) (u : Uvc) : Nat :=
  match u.phase with
  | .none => 0
  | .encSize => 1 + p.obufDepth
  | .encEmit => p.obufDepth
  | .decStep => u.inLen.toNat + 1

/-- The command in progress in `u` completes in the sequencer's `n`-th step from here, and not before, in the state `v`. -/
def CompletesAfter (p : Params) (n : Nat) (u v : Uvc) : Prop :=
  seqRun p n u = .ok v ∧ v.state ≠ .busy ∧ ∀ k, k < n → ∃ m, seqRun p k u = .ok m ∧ m.state = .busy

/-- A command leaves the host's operands as they were at its issue: VALUE_IN, MAX, IN_LEN and every byte of IN (R65, R160). -/
def OperandsKept (u v : Uvc) : Prop :=
  v.valueIn = u.valueIn ∧ v.maxReg = u.maxReg ∧ v.inLen = u.inLen ∧ v.inBuf = u.inBuf

/-- `v` is the end of a successful encode issued in `u` (R108, R111): OUT holds EncBytes(VALUE_IN) and its other bytes are as before, and
OUT_LEN holds the count wherever its 16 bits can (log 2). -/
def EncodedAs (u v : Uvc) : Prop :=
  v.state = .ok ∧ v.cause = .none ∧ v.phase = .none ∧ (nbytes u.valueIn < 2 ^ 16 → v.outLen.toNat = nbytes u.valueIn) ∧ v.valueOut = 0 ∧ v.consumed = 0 ∧
    Memory.holds v.outBuf (encBytes u.valueIn) ∧
    ∀ j, nbytes u.valueIn ≤ j → Memory.read v.outBuf j = Memory.read u.outBuf j

/-- `v` is the end of a successful decode issued in `u`, with the value `x` and `c` bytes consumed (R138, R143). -/
def DecodedAs (u v : Uvc) (x : Nat) (c : Nat) : Prop :=
  v.state = .ok ∧ v.cause = .none ∧ v.phase = .none ∧ v.valueOut = x ∧ v.consumed.toNat = c ∧ v.outLen = 0 ∧ v.outBuf = u.outBuf

/-- `v` is the end of a command issued in `u` that failed with the cause `c` (R181, R185). -/
def FailedWith (u v : Uvc) (c : Cause) : Prop :=
  v.state = .err ∧ v.cause = c ∧ v.phase = .none ∧ v.valueOut = 0 ∧ v.outLen = 0 ∧ v.consumed = 0 ∧ v.outBuf = u.outBuf

end Sys2Proof.Machine
end

