-- ==== Sys2Proof/Certificates/Slice0/Obligations.lean ====
section
/-! DEFINITION. The statements for the provers. Each docstring names the rule of spec/ the statement formalises. -/

open Sys2Proof Sys2Proof.Machine

/-! ## Encoding -/

/-- R72: the six words, with the DIR and BSEL of each, and no other command word. -/
def Obligations.CommandWordTable : Prop :=
  (∀ r ∈ [((0x01 : Byte), Instr.enc, Dir.encode, BSel.maxReg), (0x02, .encu, .encode, .unbounded), (0x03, .enc32, .encode, .fixed5),
      (0x11, .dec, .decode, .maxReg), (0x12, .decu, .decode, .unbounded), (0x13, .dec32, .decode, .fixed5)],
    decode r.1 = .ok r.2.1 ∧ encode r.2.1 = r.1 ∧ r.2.1.dir = r.2.2.1 ∧ r.2.1.bsel = r.2.2.2) ∧
  ∀ (c : Byte) (i : Instr), decode c = .ok i → c ∈ ([0x01, 0x02, 0x03, 0x11, 0x12, 0x13] : List Byte)

/-- Decoding the word of a command gives the command back, and a word that decodes to a command is its word (from R70, R72). -/
def Obligations.DecodeInvertsEncode : Prop :=
  (∀ i : Instr, i.wf = true ∧ decode (encode i) = .ok i) ∧ ∀ (c : Byte) (i : Instr), decode c = .ok i → c = encode i

/-- R73: a word is legal if and only if CMD[7:5] = 000, CMD[3:2] = 00 and CMD[1:0] is not 00; equivalently it is one of the six; the
other 250 end at issue with ILLEGAL_CMD. -/
def Obligations.LegalWordFieldLaw : Prop :=
  (∀ c : Byte, (∃ i, decode c = .ok i) ↔ (c.extractLsb' 5 3 = 0 ∧ c.extractLsb' 2 2 = 0 ∧ c.extractLsb' 0 2 ≠ 0)) ∧
  (∀ c : Byte, (∃ i, decode c = .ok i) ↔ c ∈ ([0x01, 0x02, 0x03, 0x11, 0x12, 0x13] : List Byte)) ∧
  ((List.range 256).filter fun w => (decodeTableWord 8 w).isNone).length = 250 ∧
  ∀ (c : Byte) (s : State), (¬ ∃ i, decode c = .ok i) → s.uvc.state ≠ .busy →
    ∃ t, hostWrite (.cmd c) s = .next t ∧ t.uvc.state = .err ∧ t.uvc.cause = .illegalCmd

/-- R75: the bound of each bound select, that the issue writes it to BUD, and that Fin(0) comes only from MAXREG with MAX = 0. -/
def Obligations.BoundOperandReachesBudget : Prop :=
  (∀ m : MaxReg, boundOf .maxReg m = (if m.unb = true then .unb else .fin m.limit) ∧ boundOf .unbounded m = .unb ∧
    boundOf .fixed5 m = .fin 5) ∧
  (∀ (i : Instr) (s : State), s.uvc.state ≠ .busy → (i.dir = .decode → s.uvc.inLen.toNat ≤ s.params.ibufDepth) →
    ∃ t, exec i s = .next t ∧ t.uvc.bud = boundOf i.bsel s.uvc.maxReg) ∧
  ∀ (b : BSel) (m : MaxReg), boundOf b m = .fin 0 ↔ b = .maxReg ∧ maxWord m = 0

/-! ## Issue -/

/-- R160: the issue step, written from the bits of the word: its checks in order, and every register it writes; nothing else changes.
While BUSY the write is no issue. -/
def Obligations.IssueWritesListedRegisters : Prop :=
  ∀ (s : State) (c : Byte), (s.uvc.state = .busy → hostWrite (.cmd c) s = .next s) ∧
    (s.uvc.state ≠ .busy → hostWrite (.cmd c) s = .next { s with uvc := (
      if c ∉ ([0x01, 0x02, 0x03, 0x11, 0x12, 0x13] : List Byte) then
        { s.uvc with state := .err, cause := .illegalCmd, valueOut := 0, outLen := 0, consumed := 0, phase := .none }
      else if c.getLsbD 4 = true ∧ s.params.ibufDepth < s.uvc.inLen.toNat then
        { s.uvc with state := .err, cause := .contract, valueOut := 0, outLen := 0, consumed := 0, phase := .none }
      else
        { s.uvc with
          valueOut := 0, outLen := 0, consumed := 0, cause := .none
          bud := if c.extractLsb' 0 2 = 1 then (if s.uvc.maxReg.unb = true then .unb else .fin s.uvc.maxReg.limit)
            else if c.extractLsb' 0 2 = 2 then .unb else .fin 5
          idx := 0, acc := 0, state := .busy
          phase := if c.getLsbD 4 = true then .decStep else .encSize }) })

/-- The issue of ENC, ENCU and ENC32 answers this next state, with everything not named unchanged (from R108 to R110 and R160). -/
def Obligations.EncodeCommandsIssue : Prop :=
  ∀ s : State, s.uvc.state ≠ .busy →
    (∀ (i : Instr) (b : Bound),
      (i = .enc ∧ b = (if s.uvc.maxReg.unb = true then .unb else .fin s.uvc.maxReg.limit)) ∨ (i = .encu ∧ b = .unb) ∨
        (i = .enc32 ∧ b = .fin 5) →
      exec i s = .next { s with uvc := { s.uvc with
        valueOut := 0, outLen := 0, consumed := 0, cause := .none, bud := b, idx := 0, acc := 0, state := .busy, phase := .encSize } })

/-- The issue of DEC, DECU and DEC32 within the input-length contract answers this next state, with everything not named unchanged (from
R138 to R140, R160 and R162). -/
def Obligations.DecodeCommandsIssue : Prop :=
  ∀ s : State, s.uvc.state ≠ .busy → s.uvc.inLen.toNat ≤ s.params.ibufDepth →
    (∀ (i : Instr) (b : Bound),
      (i = .dec ∧ b = (if s.uvc.maxReg.unb = true then .unb else .fin s.uvc.maxReg.limit)) ∨ (i = .decu ∧ b = .unb) ∨
        (i = .dec32 ∧ b = .fin 5) →
      exec i s = .next { s with uvc := { s.uvc with
        valueOut := 0, outLen := 0, consumed := 0, cause := .none, bud := b, idx := 0, acc := 0, state := .busy, phase := .decStep } })

/-- R162: a decode issued with IN_LEN > IBUF_DEPTH ends in the issue step with CONTRACT, from whatever IN holds; an encode never does. -/
def Obligations.InputLengthContract : Prop :=
  (∀ (s : State) (i : Instr), i = .dec ∨ i = .decu ∨ i = .dec32 → s.uvc.state ≠ .busy → s.params.ibufDepth < s.uvc.inLen.toNat →
    exec i s = .next { s with uvc := { s.uvc with
      state := .err, cause := .contract, valueOut := 0, outLen := 0, consumed := 0, phase := .none } }) ∧
  ∀ (s : State) (i : Instr), i = .enc ∨ i = .encu ∨ i = .enc32 → s.uvc.state ≠ .busy →
    ∃ t, exec i s = .next t ∧ t.uvc.state = .busy ∧ t.uvc.cause = .none

/-- R161: a word that is not one of the six ends in the issue step with ILLEGAL_CMD; no operand is read, so the registers written do not
depend on any, and the sequencer has no step after it. -/
def Obligations.IllegalWordEndsAtIssue : Prop :=
  ∀ (s : State) (c : Byte), c ∉ ([0x01, 0x02, 0x03, 0x11, 0x12, 0x13] : List Byte) → s.uvc.state ≠ .busy →
    ∃ t, hostWrite (.cmd c) s = .next t ∧ t.sequencerReady = false ∧
      t = { s with uvc := { s.uvc with
        state := .err, cause := .illegalCmd, valueOut := 0, outLen := 0, consumed := 0, phase := .none } }

/-! ## Host access -/

/-- R165: a host write while STATE = BUSY has no effect on any state, whatever the target; so a second command is not issued. -/
def Obligations.WritesWhileBusyAreDropped : Prop :=
  ∀ s : State, s.uvc.state = .busy → (∀ w : HostWrite, hostWrite w s = .next s) ∧ ∀ i : Instr, exec i s = .next s

/-- R164: the effect of a host write on each target while STATE is not BUSY. A write to CMD is the issue of the word: the command the
word decodes to is executed, and a word that decodes to none fails. -/
def Obligations.HostWriteEffects : Prop :=
  ∀ s : State, s.uvc.state ≠ .busy →
    (∀ (c : Byte) (i : Instr), decode c = .ok i → hostWrite (.cmd c) s = exec i s) ∧
    (∀ c : Byte, (∀ i, decode c ≠ .ok i) →
      ∃ t, hostWrite (.cmd c) s = .next t ∧ t.uvc.state = .err ∧ t.uvc.cause = .illegalCmd) ∧
    (∀ v, hostWrite (.valueIn v) s = .next { s with uvc := { s.uvc with valueIn := v } }) ∧
    (∀ v : MaxWord, ∃ m : MaxReg, hostWrite (.max v) s = .next { s with uvc := { s.uvc with maxReg := m } } ∧
      m.limit.toNat = v.toNat % 2 ^ 16 ∧ (m.unb = true ↔ 2 ^ 31 ≤ v.toNat)) ∧
    (∀ v, hostWrite (.inLen v) s = .next { s with uvc := { s.uvc with inLen := v } }) ∧
    (∀ i v, ∃ m : Memory, hostWrite (.inByte i v) s = .next { s with uvc := { s.uvc with inBuf := m } } ∧
      Memory.read m i = some v ∧ ∀ j, j ≠ i → Memory.read m j = Memory.read s.uvc.inBuf j) ∧
    (∀ v, hostWrite (.status v) s = .next s ∧ hostWrite (.cause v) s = .next s) ∧
    (∀ v, hostWrite (.valueOut v) s = .next s) ∧
    (∀ v, hostWrite (.outLen v) s = .next s ∧ hostWrite (.consumed v) s = .next s) ∧
    ∀ i v, hostWrite (.outByte i v) s = .next s

/-- R166: the value each host read returns, in every state, BUSY included; the UVC is unchanged, and an unwritten byte faults (R203). -/
def Obligations.HostReadReturnsCurrentValue : Prop :=
  ∀ s : State,
    (∀ (r : HostRead) (v : Nat),
      (r = .cmd ∧ v = 0) ∨
      (r = .status ∧ v = (match s.uvc.state with | .idle => 0 | .busy => 1 | .ok => 2 | .err => 3)) ∨
      (r = .cause ∧ v = (match s.uvc.cause with
        | .none => 0 | .encBound => 1 | .decBound => 2 | .decTrunc => 3 | .decCapacity => 4 | .contract => 5 | .illegalCmd => 6)) ∨
      (r = .valueIn ∧ v = s.uvc.valueIn) ∨
      (r = .max ∧ v = (if s.uvc.maxReg.unb = true then 2 ^ 31 else 0) + s.uvc.maxReg.limit.toNat) ∨
      (r = .inLen ∧ v = s.uvc.inLen.toNat) ∨ (r = .valueOut ∧ v = s.uvc.valueOut) ∨
      (r = .outLen ∧ v = s.uvc.outLen.toNat) ∨ (r = .consumed ∧ v = s.uvc.consumed.toNat) ∨
      (∃ i b, r = .inByte i ∧ Memory.read s.uvc.inBuf i = some b ∧ v = b.toNat) ∨
      (∃ i b, r = .outByte i ∧ Memory.read s.uvc.outBuf i = some b ∧ v = b.toNat) →
      hostRead r s = .next { s with readBack := (r, v) :: s.readBack }) ∧
    (∀ i, Memory.read s.uvc.inBuf i = none → hostRead (.inByte i) s = .fault (.unwrittenByte .input i)) ∧
    ∀ i, Memory.read s.uvc.outBuf i = none → hostRead (.outByte i) s = .fault (.unwrittenByte .output i)

/-- The host's poll reads STATUS once a turn, and polls again exactly while it reads BUSY (the host notation of R81; that a pending poll is
an event of the state is the model's choice, log 11). -/
def Obligations.PollRepeatsWhileBusy : Prop :=
  ∀ s : State,
    (s.uvc.state = .busy →
      runEvent .poll s = .next { s with events := .poll :: s.events, readBack := (.status, 1) :: s.readBack }) ∧
    (s.uvc.state ≠ .busy → ∃ v, v ≠ 1 ∧ runEvent .poll s = .next { s with readBack := (.status, v) :: s.readBack })

/-! ## Reset -/

/-- What a reset event does, in any state, BUSY included (from R200, and R21 for the configuration). That a reset is an entry of the
pending events, that the other entries stay, and who has the turn are the model's choices (log 7, 8, 21). -/
def Obligations.ResetEventClearsTheUvc : Prop :=
  ∀ (s : State) (rest : List Event), s.events = .reset :: rest → (chooseTurn s).1 = some .external →
    ∃ t, step s = .next t ∧ t.params = s.params ∧ t.events = rest ∧
      t.uvc.state = .idle ∧ t.uvc.cause = .none ∧ t.uvc.valueIn = 0 ∧ t.uvc.maxReg = { limit := 0, unb := false } ∧
      t.uvc.inLen = 0 ∧ t.uvc.valueOut = 0 ∧ t.uvc.outLen = 0 ∧ t.uvc.consumed = 0 ∧ t.uvc.phase = .none ∧
      ∀ i, Memory.read t.uvc.inBuf i = none ∧ Memory.read t.uvc.outBuf i = none

/-- The registers of R22 and PHASE of R34 after reset in every configuration, and that the UVC then has no step of its own (R204). -/
def Obligations.PowerOnStateIsQuiescent : Prop :=
  State.reset.params = { w := 64, ibufDepth := 16 } ∧ State.reset = State.resetWith State.reset.params ∧
  ∀ p : Params, ∀ u, u = (State.resetWith p).uvc →
    u.state = .idle ∧ u.cause = .none ∧ u.valueIn = 0 ∧ u.maxReg.limit = 0 ∧ u.maxReg.unb = false ∧ u.inLen = 0 ∧ u.valueOut = 0 ∧
    u.outLen = 0 ∧ u.consumed = 0 ∧ u.phase = .none ∧ (∀ i, Memory.read u.inBuf i = none ∧ Memory.read u.outBuf i = none) ∧
    step (State.resetWith p) = .next (State.resetWith p)

/-- What each command gives when it is issued right after reset, with none of its operands written (the table of R205). -/
def Obligations.CommandsRightAfterReset : Prop :=
  ∀ (p : Params) (s : State), p.wf = true → s = State.resetWith p →
    (∃ t v, exec .enc s = .next t ∧ CompletesAfter p 1 t.uvc v ∧ v.state = .err ∧ v.cause = .encBound) ∧
    (∀ i, i = .encu ∨ i = .enc32 → ∃ t v, exec i s = .next t ∧ CompletesAfter p 2 t.uvc v ∧ v.state = .ok ∧ v.outLen = 1 ∧
      v.outBuf = [(0, 0x00)]) ∧
    (∃ t v, exec .dec s = .next t ∧ CompletesAfter p 1 t.uvc v ∧ v.state = .err ∧ v.cause = .decBound) ∧
    ∀ i, i = .decu ∨ i = .dec32 → ∃ t v, exec i s = .next t ∧ CompletesAfter p 1 t.uvc v ∧ v.state = .err ∧ v.cause = .decTrunc

/-! ## The step -/

/-- Where the next event writes a command's word to CMD and the turn is the outside's, the step is exec of that command, with the event
taken off and the choice of turn used up; who has the turn when the schedule is exhausted is a free value, and the statement holds for
both (from R57, R61, R160; the event list and the schedule are the model's, log 7 and 8). -/
def Obligations.StepRunsDecodedCommand : Prop :=
  ∀ (s : State) (c : Byte) (i : Instr) (rest : List Event), s.events = .write (.cmd c) :: rest → decode c = .ok i → i.wf = true →
    (s.uvc.phase = .none → step s = exec i { s with events := rest }) ∧
    (s.uvc.phase ≠ .none → ∀ l, s.schedule = .external :: l → step s = exec i { s with events := rest, schedule := l }) ∧
    (s.uvc.phase ≠ .none → s.schedule = [] →
      step s = match freeTurn s.fresh with
        | .external => exec i { s with events := rest, fresh := s.fresh + 1 }
        | .sequencer => sequencerTurn { s with fresh := s.fresh + 1 })

/-- The state prepared for a command's word runs exactly that command in its next step, from every state (the model's own, log 15). -/
def Obligations.FetchWordRunsCommand : Prop :=
  ∀ (s : State) (i : Instr), step (s.withFetchWord 8 (encode i).toNat) = exec i s

/-- R171: the sequencer has a step exactly when PHASE is not NONE, and it is the step PHASE names; with PHASE = NONE the UVC is quiescent. -/
def Obligations.PhaseSelectsSequencerStep : Prop :=
  ∀ s : State, (s.sequencerReady = true ↔ s.uvc.phase ≠ .none) ∧
    (s.events = [] →
      (s.uvc.phase = .none → step s = .next s) ∧
      (s.uvc.phase = .encSize → step s = .next { s with uvc := encSizeStep s.uvc }) ∧
      (s.uvc.phase = .encEmit → ∀ r, encEmitStep s.params s.uvc = r →
        (∀ v, r = .ok v → step s = .next { s with uvc := v }) ∧ ∀ f, r = .error f → step s = .fault f) ∧
      (s.uvc.phase = .decStep → ∀ r, decStep s.params s.uvc = r →
        (∀ v, r = .ok v → step s = .next { s with uvc := v }) ∧ ∀ f, r = .error f → step s = .fault f))

/-! ## Sequencer steps -/

/-- R106: the ENC_SIZE step. -/
def Obligations.EncSizeCountsThenChecks : Prop :=
  ∀ (p : Params) (u : Uvc), u.phase = .encSize →
    (∀ k : Half, u.bud = .fin k → k.toNat < max 1 ((bitlen u.valueIn + 6) / 7) → seqStep p u = .ok
      { u with state := .err, cause := .encBound, valueOut := 0, outLen := 0, consumed := 0, phase := .none }) ∧
    (u.bud = .unb ∨ (∃ k : Half, u.bud = .fin k ∧ max 1 ((bitlen u.valueIn + 6) / 7) ≤ k.toNat) → seqStep p u = .ok
      { u with nb := max 1 ((bitlen u.valueIn + 6) / 7), idx := 0, phase := .encEmit })

/-- The ENC_EMIT step (from R107) writes one byte, `(c << 7) | g` with the group counted from the most significant, and completes on the last.
The premises are what R107 says always holds of IDX and NB. The count fits the 16 bits of OUT_LEN for every W up to 458745 (log 2). -/
def Obligations.EncEmitWritesOneByte : Prop :=
  ∀ (p : Params) (u : Uvc) (i : Nat), p.wf = true → u.phase = .encEmit → u.idx = i → i < u.nb → u.nb ≤ p.obufDepth →
    ∃ (m : Memory) (b : Byte) (n : Half),
      b.toNat = (if i < u.nb - 1 then 128 else 0) + u.valueIn / 2 ^ (7 * (u.nb - 1 - i)) % 128 ∧
      Memory.read m i = some b ∧ (∀ k, k ≠ i → Memory.read m k = Memory.read u.outBuf k) ∧ (u.nb < 2 ^ 16 → n.toNat = u.nb) ∧
      seqStep p u = .ok (if i + 1 = u.nb then { u with outBuf := m, idx := i + 1, outLen := n, state := .ok, phase := .none }
        else { u with outBuf := m, idx := i + 1 })

/-- R137: the DEC_STEP step: DEC_BOUND, then DEC_TRUNC, then (a byte having been read) DEC_CAPACITY; then the byte is assembled, and ends
the command or decrements the budget. -/
def Obligations.DecStepConsumesOneByte : Prop :=
  ∀ (p : Params) (u : Uvc), u.phase = .decStep →
    (u.bud = .fin 0 → seqStep p u = .ok
      { u with state := .err, cause := .decBound, valueOut := 0, outLen := 0, consumed := 0, phase := .none }) ∧
    (u.bud ≠ .fin 0 → u.idx = u.inLen.toNat → seqStep p u = .ok
      { u with state := .err, cause := .decTrunc, valueOut := 0, outLen := 0, consumed := 0, phase := .none }) ∧
    (u.bud ≠ .fin 0 → u.idx < u.inLen.toNat → u.inLen.toNat ≤ p.ibufDepth →
      ∀ b : Byte, Memory.read u.inBuf u.idx = some b →
        (2 ^ (p.w - 7) ≤ u.acc → seqStep p u = .ok
          { u with state := .err, cause := .decCapacity, valueOut := 0, outLen := 0, consumed := 0, phase := .none }) ∧
        (u.acc < 2 ^ (p.w - 7) → b.toNat < 128 → ∃ c : Half, c.toNat = u.idx + 1 ∧ seqStep p u = .ok
          { u with acc := u.acc * 128 + b.toNat, idx := u.idx + 1, valueOut := u.acc * 128 + b.toNat, consumed := c,
                   state := .ok, phase := .none }) ∧
        (u.acc < 2 ^ (p.w - 7) → 128 ≤ b.toNat → ∃ d : Bound,
          ((u.bud = .unb ∧ d = .unb) ∨ ∃ k l : Half, u.bud = .fin k ∧ d = .fin l ∧ l.toNat + 1 = k.toNat) ∧
          seqStep p u = .ok { u with acc := u.acc * 128 + (b.toNat - 128), idx := u.idx + 1, bud := d }))

/-- R203: a decoder step that reads an unwritten IN byte, and a host read of an unwritten IN or OUT byte, are faults of the model. -/
def Obligations.UnwrittenByteFaults : Prop :=
  (∀ (p : Params) (u : Uvc), u.phase = .decStep → u.bud ≠ .fin 0 → u.idx < u.inLen.toNat → u.inLen.toNat ≤ p.ibufDepth →
    Memory.read u.inBuf u.idx = none → seqStep p u = .error (.unwrittenByte .input u.idx)) ∧
  (∀ (s : State) (i : Nat), Memory.read s.uvc.inBuf i = none → hostRead (.inByte i) s = .fault (.unwrittenByte .input i)) ∧
  ∀ (s : State) (i : Nat), Memory.read s.uvc.outBuf i = none → hostRead (.outByte i) s = .fault (.unwrittenByte .output i)

/-- Whatever step raises, in the sequencer or at issue, writes the six registers of R181 and no others. -/
def Obligations.FailureWritesSixRegisters : Prop :=
  (∀ (p : Params) (u v : Uvc), u.state = .busy → seqStep p u = .ok v → v.state = .err →
    v = { u with state := .err, cause := v.cause, valueOut := 0, outLen := 0, consumed := 0, phase := .none } ∧
      (v.cause = .encBound ∨ v.cause = .decBound ∨ v.cause = .decTrunc ∨ v.cause = .decCapacity)) ∧
  ∀ (s t : State) (c : Byte), s.uvc.state ≠ .busy → hostWrite (.cmd c) s = .next t → t.uvc.state = .err →
    t = { s with uvc := { s.uvc with
      state := .err, cause := t.uvc.cause, valueOut := 0, outLen := 0, consumed := 0, phase := .none } } ∧
      (t.uvc.cause = .illegalCmd ∨ t.uvc.cause = .contract)

/-! ## The wire format -/

/-- R76: every byte is its continuation bit and its data group, `b = (C(b) << 7) | D(b)`, and packing puts both where unpacking finds them. -/
def Obligations.WireByteFields : Prop :=
  (∀ b : Byte, contBit b = b.getLsbD 7 ∧ (dataGroup b).toNat = b.toNat % 128 ∧
    b.toNat = (if contBit b = true then 128 else 0) + (dataGroup b).toNat ∧ pack (contBit b) (dataGroup b) = b) ∧
  ∀ (c : Bool) (g : BitVec 7), contBit (pack c g) = c ∧ dataGroup (pack c g) = g

/-- EncBytes(V) lists the packed groups, most significant first, and is a well-formed uintvar whose value is V (from R104, whose sentence on
the value is the spec's own inference: "derived: from rules R100 to R103 and 30_encoding.md rule R77"). -/
def Obligations.EncBytesDenoteTheValue : Prop :=
  ∀ v : Nat, (encBytes v).length = nbytes v ∧
    (∀ i, i < nbytes v → (encBytes v)[i]? = some (pack (cont i (nbytes v)) (group v (nbytes v - 1 - i)))) ∧
    wellFormedUintvar (encBytes v) = true ∧ uintvarVal (encBytes v) = v

/-- The count of R101 is the least: V takes at most n bytes exactly when V < 2^(7n), no well-formed uintvar of the value V is shorter, and
the first byte of an encoding of V >= 1 is not 0x80 (from R101, R113, R80). -/
def Obligations.EncodingIsMinimal : Prop :=
  (∀ (v : Nat) (n : Nat), 1 ≤ n → (nbytes v ≤ n ↔ v < 2 ^ (7 * n))) ∧
  (∀ l : List Byte, wellFormedUintvar l = true → nbytes (uintvarVal l) ≤ l.length) ∧
  ∀ v : Nat, 1 ≤ v → (encBytes v)[0]? ≠ some 0x80

/-- R78: a reader finds the length as one plus the index of the first byte with continuation bit 0; a list with no such byte holds no
complete uintvar. -/
def Obligations.ReaderFindsTheLength : Prop :=
  (∀ l r : List Byte, wellFormedUintvar l = true → uintvarLength (l ++ r) = some l.length) ∧
  (∀ l : List Byte, (∀ b ∈ l, contBit b = true) → uintvarLength l = none ∧ ∀ n, wellFormedUintvar (l.take n) = false) ∧
  ∀ (l : List Byte) (n : Nat), uintvarLength l = some n → wellFormedUintvar (l.take n) = true ∧ (l.take n).length = n

/-- The capacity check of R134 is exact: the next assembly passes W bits for some byte, equivalently for every byte. -/
def Obligations.CapacityCheckIsExact : Prop :=
  ∀ (p : Params) (acc : Nat), p.wf = true →
    (capacityExceeded p acc = true ↔ ∃ b, 2 ^ p.w ≤ assemble acc b) ∧
    (capacityExceeded p acc = true ↔ ∀ b, 2 ^ p.w ≤ assemble acc b)

/-- The document's construction, least significant group first by prepending with its bound check on every byte, computes EncodeFn (from
R105 and R112). -/
def Obligations.DocumentLoopComputesEncodeFn : Prop :=
  ∀ (b : Bound) (v : Nat), documentEncode b v = encodeFn b v

/-- Bound equivalence and round trip for the canonical encoding L = EncBytes(V), before every rest R (from R142; the reading of its free L
is the model's, log 18). -/
def Obligations.BoundEquivalenceAndRoundTrip : Prop :=
  ∀ (p : Params) (b : Bound) (v : Nat) (r : List Byte), p.wf = true → v < 2 ^ p.w →
    (encodeFn b v = .ok (encBytes v) ↔ decodeFn p b (encBytes v ++ r) = .ok (v, (encBytes v).length))

/-- R142 does not hold for a list L that is not the canonical encoding: an over-long one decodes to V and is not encoded (from R141;
log 18). -/
def Obligations.OverLongListBreaksLiteralEquivalence : Prop :=
  ∃ (p : Params) (b : Bound) (v : Nat) (l : List Byte), p.wf = true ∧ v < 2 ^ p.w ∧ encodeFn b v ≠ .ok l ∧
    ∀ r, decodeFn p b (l ++ r) = .ok (v, l.length)

/-- DecodeFn accepts exactly the well-formed uintvars at the front of its input that the bound allows and W bits hold, with their value
and length (from R77, R135 and R134). -/
def Obligations.DecodeFnAcceptsExactlyUintvars : Prop :=
  ∀ (p : Params) (b : Bound) (l : List Byte) (v : Nat) (c : Nat), p.wf = true →
    (decodeFn p b l = .ok (v, c) ↔
      c ≤ l.length ∧ wellFormedUintvar (l.take c) = true ∧ uintvarVal (l.take c) = v ∧ v < 2 ^ p.w ∧
        ∀ k, b = .fin k → c ≤ k.toNat)

/-- Over-long input: leading 0x80 bytes leave the accumulator at 0 and count as consumed, subject only to the bound (from R141). -/
def Obligations.OverLongInputIsAccepted : Prop :=
  ∀ (p : Params) (b : Bound) (m : Nat) (x : Byte) (r : List Byte), p.wf = true → contBit x = false → (∀ k, b = .fin k → m < k.toNat) →
    decodeFn p b (List.replicate m 0x80 ++ x :: r) = .ok ((dataGroup x).toNat, m + 1)

/-- The causes of a decode bounded by 5, exactly: DEC_BOUND when the first 5 bytes are present and go on, DEC_TRUNC when the input ends
first, never DEC_CAPACITY; and its results are below 2^35 (from R140 and R134). -/
def Obligations.FiveByteDecodeOutcomes : Prop :=
  ∀ (p : Params) (l : List Byte), p.wf = true →
    (decodeFn p (.fin 5) l = .error .decBound ↔ 5 ≤ l.length ∧ ∀ b ∈ l.take 5, contBit b = true) ∧
    (decodeFn p (.fin 5) l = .error .decTrunc ↔ l.length < 5 ∧ ∀ b ∈ l, contBit b = true) ∧
    decodeFn p (.fin 5) l ≠ .error .decCapacity ∧
    ∀ v c, decodeFn p (.fin 5) l = .ok (v, c) → v < 2 ^ 35 ∧ 1 ≤ c ∧ c ≤ 5

/-- Where W holds every value the input buffer can carry, no decode meets the capacity check: the model's form of the document's
unbounded W (from R3; log 2). -/
def Obligations.WideWidthNeverMeetsCapacity : Prop :=
  ∀ (p : Params) (b : Bound) (l : List Byte), p.wf = true → 7 * p.ibufDepth ≤ p.w → l.length ≤ p.ibufDepth →
    decodeFn p b l ≠ .error .decCapacity

/-! ## Whole commands -/

/-- ENC from its issue to its end: 1 + nbytes steps to the encoding, or 1 step to ENC_BOUND when the bound is finite and too small (R108,
R111). -/
def Obligations.EncRunsToItsResult : Prop :=
  ∀ s : State, s.params.wf = true → s.uvc.valueIn < 2 ^ s.params.w → s.uvc.state ≠ .busy →
    ∃ t v, exec .enc s = .next t ∧ OperandsKept s.uvc v ∧
      (s.uvc.maxReg.unb = true ∨ nbytes s.uvc.valueIn ≤ s.uvc.maxReg.limit.toNat →
        CompletesAfter s.params (1 + nbytes s.uvc.valueIn) t.uvc v ∧ EncodedAs s.uvc v) ∧
      (s.uvc.maxReg.unb = false → s.uvc.maxReg.limit.toNat < nbytes s.uvc.valueIn →
        CompletesAfter s.params 1 t.uvc v ∧ FailedWith s.uvc v .encBound)

/-- ENCU from its issue to its end: always OK after 1 + nbytes steps, whatever MAX holds (R109, R111). -/
def Obligations.EncuAlwaysSucceeds : Prop :=
  ∀ s : State, s.params.wf = true → s.uvc.valueIn < 2 ^ s.params.w → s.uvc.state ≠ .busy →
    ∃ t v, exec .encu s = .next t ∧ CompletesAfter s.params (1 + nbytes s.uvc.valueIn) t.uvc v ∧ EncodedAs s.uvc v ∧
      OperandsKept s.uvc v ∧ nbytes s.uvc.valueIn ≤ s.params.obufDepth

/-- ENC32 from its issue to its end: OK exactly when VALUE_IN < 2^35, else ENC_BOUND in 1 step, whatever MAX holds (R110, R111). -/
def Obligations.Enc32AcceptsBelowTwoToThe35 : Prop :=
  ∀ s : State, s.params.wf = true → s.uvc.valueIn < 2 ^ s.params.w → s.uvc.state ≠ .busy →
    ∃ t v, exec .enc32 s = .next t ∧ OperandsKept s.uvc v ∧
      (s.uvc.valueIn < 2 ^ 35 → CompletesAfter s.params (1 + nbytes s.uvc.valueIn) t.uvc v ∧ EncodedAs s.uvc v) ∧
      (2 ^ 35 ≤ s.uvc.valueIn → CompletesAfter s.params 1 t.uvc v ∧ FailedWith s.uvc v .encBound)

/-- DEC from its issue to its end, as DecodeFn says with the bound of MAX: c steps on success, j + 1 steps on a failure; only the bytes it
reads need to have been written (R138, R143, R205). -/
def Obligations.DecRunsToItsResult : Prop :=
  ∀ (s : State) (l : List Byte) (b : Bound), s.uvc.state ≠ .busy → s.uvc.inLen.toNat ≤ s.params.ibufDepth → l.length = s.uvc.inLen.toNat →
    b = (if s.uvc.maxReg.unb = true then .unb else .fin s.uvc.maxReg.limit) →
    (∀ x c, decodeRun s.params b l = .ok (x, c) → (∀ i, i < c → Memory.read s.uvc.inBuf i = l[i]?) →
      ∃ t v, exec .dec s = .next t ∧ CompletesAfter s.params c t.uvc v ∧ DecodedAs s.uvc v x c ∧ OperandsKept s.uvc v) ∧
    ∀ e j, decodeRun s.params b l = .error (e, j) → (∀ i, i < bytesReadOnFailure e j → Memory.read s.uvc.inBuf i = l[i]?) →
      ∃ t v, exec .dec s = .next t ∧ CompletesAfter s.params (j + 1) t.uvc v ∧ FailedWith s.uvc v e ∧ OperandsKept s.uvc v

/-- DECU from its issue to its end, as DecodeFn says with no bound, whatever MAX holds; never DEC_BOUND (R139, R143). -/
def Obligations.DecuRunsToItsResult : Prop :=
  ∀ (s : State) (l : List Byte), s.uvc.state ≠ .busy → s.uvc.inLen.toNat ≤ s.params.ibufDepth → l.length = s.uvc.inLen.toNat →
    (∀ x c, decodeRun s.params .unb l = .ok (x, c) → (∀ i, i < c → Memory.read s.uvc.inBuf i = l[i]?) →
      ∃ t v, exec .decu s = .next t ∧ CompletesAfter s.params c t.uvc v ∧ DecodedAs s.uvc v x c ∧ OperandsKept s.uvc v) ∧
    ∀ e j, decodeRun s.params .unb l = .error (e, j) → (∀ i, i < bytesReadOnFailure e j → Memory.read s.uvc.inBuf i = l[i]?) →
      e ≠ .decBound ∧
      ∃ t v, exec .decu s = .next t ∧ CompletesAfter s.params (j + 1) t.uvc v ∧ FailedWith s.uvc v e ∧ OperandsKept s.uvc v

/-- DEC32 from its issue to its end, as DecodeFn says with the bound 5, whatever MAX holds: at most 6 steps, results below 2^35, never
DEC_CAPACITY (R140, R143). -/
def Obligations.Dec32RunsToItsResult : Prop :=
  ∀ (s : State) (l : List Byte), s.params.wf = true → s.uvc.state ≠ .busy → s.uvc.inLen.toNat ≤ s.params.ibufDepth →
    l.length = s.uvc.inLen.toNat →
    (∀ x c, decodeRun s.params (.fin 5) l = .ok (x, c) → (∀ i, i < c → Memory.read s.uvc.inBuf i = l[i]?) →
      x < 2 ^ 35 ∧ c ≤ 5 ∧
      ∃ t v, exec .dec32 s = .next t ∧ CompletesAfter s.params c t.uvc v ∧ DecodedAs s.uvc v x c ∧ OperandsKept s.uvc v) ∧
    ∀ e j, decodeRun s.params (.fin 5) l = .error (e, j) → (∀ i, i < bytesReadOnFailure e j → Memory.read s.uvc.inBuf i = l[i]?) →
      e ≠ .decCapacity ∧ j ≤ 5 ∧
      ∃ t v, exec .dec32 s = .next t ∧ CompletesAfter s.params (j + 1) t.uvc v ∧ FailedWith s.uvc v e ∧ OperandsKept s.uvc v

/-- The causes each command can end with, and ENC32's exactly (from R182, with R161 for an illegal word). -/
def Obligations.CausesEachCommandEndsWith : Prop :=
  (∀ (i : Instr) (s t : State) (k : Nat) (u : Uvc), s.params.wf = true → s.uvc.valueIn < 2 ^ s.params.w → s.uvc.state ≠ .busy →
    exec i s = .next t → seqRun s.params k t.uvc = .ok u → u.state = .err →
    u.cause ∈ (match i with
      | .enc => [.encBound]
      | .encu => []
      | .enc32 => [.encBound]
      | .dec => [.contract, .decBound, .decTrunc, .decCapacity]
      | .decu => [.contract, .decTrunc, .decCapacity]
      | .dec32 => [.contract, .decBound, .decTrunc] : List Cause) ∧
    (i = .enc32 → 2 ^ 35 ≤ s.uvc.valueIn)) ∧
  ∀ (c : Byte) (s t : State), (∀ i, c ≠ encode i) → s.uvc.state ≠ .busy → hostWrite (.cmd c) s = .next t →
    t.uvc.state = .err ∧ t.uvc.cause = .illegalCmd

/-- R183: with MAX = 0 the bound is Fin(0); ENC fails with ENC_BOUND for every value, and DEC with DEC_BOUND in its first step, before any
byte is read, so whether or not one is written. -/
def Obligations.ZeroBoundFails : Prop :=
  ∀ s : State, s.uvc.state ≠ .busy → s.uvc.maxReg = { limit := 0, unb := false } →
    (∃ t v, exec .enc s = .next t ∧ t.uvc.bud = .fin 0 ∧ CompletesAfter s.params 1 t.uvc v ∧ FailedWith s.uvc v .encBound) ∧
    (s.uvc.inLen.toNat ≤ s.params.ibufDepth →
      ∃ t v, exec .dec s = .next t ∧ t.uvc.bud = .fin 0 ∧ CompletesAfter s.params 1 t.uvc v ∧ FailedWith s.uvc v .decBound)

/-! ## Invariants and whole-machine rules -/

/-- Every configuration in its range meets the invariant right after reset (from R39; the hidden registers' values are the model's, log 5,
and the invariant asks only bounds of them). -/
def Obligations.ResetStateMeetsInvariant : Prop :=
  State.reset.Inv ∧ ∀ p : Params, p.wf = true → (State.resetWith p).Inv

/-- Every step, of the sequencer, of the host, or a reset, keeps the invariant and the configuration (from R39 as log 17 reads it, R21). -/
def Obligations.StepKeepsTheInvariant : Prop :=
  ∀ s t : State, s.Inv → step s = .next t → t.Inv ∧ t.params = s.params

/-- The clause of R39 that CONSUMED <= IN_LEN whenever STATE = OK is not kept: from a state that meets it and the invariant, a host write
of IN_LEN breaks it (log 17). -/
def Obligations.ConsumedMayPassInLenAfterCompletion : Prop :=
  ∃ s t : State, s.Inv ∧ s.uvc.state = .ok ∧ s.uvc.consumed.toNat ≤ s.uvc.inLen.toNat ∧ step s = .next t ∧ t.Inv ∧ t.uvc.state = .ok ∧
    t.uvc.inLen.toNat < t.uvc.consumed.toNat

/-- The operands cannot change while a command is in progress: not by a sequencer step, and no step of the world outside but a reset
changes anything of the UVC (from R65, R165 and R58). -/
def Obligations.OperandsFixedWhileBusy : Prop :=
  (∀ (p : Params) (u v : Uvc), seqStep p u = .ok v → OperandsKept u v) ∧
  ∀ (s t : State) (e : Event) (rest : List Event), s.uvc.state = .busy → s.events = e :: rest → e ≠ .reset → externalTurn s = .next t →
    t.uvc = s.uvc

/-- An encode reads nothing of IN, IN_LEN or ACC and changes neither IN nor ACC; a decode reads nothing of OUT or VALUE_IN and leaves OUT
as it is (from R32, R26, R28 and R137). -/
def Obligations.DirectionsDoNotInterfere : Prop :=
  (∀ (p : Params) (u : Uvc) (m : Memory) (n : Half) (a : Nat), u.phase = .encSize ∨ u.phase = .encEmit →
    (∀ v, seqStep p u = .ok v → v.acc = u.acc ∧ v.bud = u.bud ∧
      seqStep p { u with inBuf := m, inLen := n, acc := a } = .ok { v with inBuf := m, inLen := n, acc := a }) ∧
    ∀ f, seqStep p u = .error f → seqStep p { u with inBuf := m, inLen := n, acc := a } = .error f) ∧
  ∀ (p : Params) (u : Uvc) (m : Memory) (x : Nat), u.phase = .decStep →
    (∀ v, seqStep p u = .ok v → v.outBuf = u.outBuf ∧ v.outLen.toNat ≤ u.outLen.toNat ∧ v.nb = u.nb ∧
      seqStep p { u with outBuf := m, valueIn := x } = .ok { v with outBuf := m, valueIn := x }) ∧
    ∀ f, seqStep p u = .error f → seqStep p { u with outBuf := m, valueIn := x } = .error f

/-- From a state that meets the invariant the machine stops only where a byte not written since reset is read (R203), or where the world
outside asks for an action the interface does not have (R167, R26). -/
def Obligations.OnlyUnwrittenBytesOrMissingActionsStop : Prop :=
  ∀ s : State, s.Inv →
    (∀ f, step s = .fault f → ∃ b i, f = .unwrittenByte b i ∧
      Memory.read (match b with | .input => s.uvc.inBuf | .output => s.uvc.outBuf) i = none) ∧
    ∀ r, step s = .refused r → ∃ e rest, s.events = e :: rest ∧ e.wf s.params = false ∧ r = .noSuchHostAction e

/-- Where the host has kept its duty and written IN[0..IN_LEN-1], no sequencer step faults; and where its next action exists in the
interface and is no read of an unwritten byte, the machine's step answers a next state (from R168, R203 and R205). -/
def Obligations.WrittenInputNeverFaults : Prop :=
  (∀ (p : Params) (u : Uvc), p.wf = true → u.Inv p → (u.phase = .decStep → u.inputWritten) → ∃ v, seqStep p u = .ok v) ∧
  ∀ s : State, s.Inv → (s.uvc.phase = .decStep → s.uvc.inputWritten) →
    (∀ e rest, s.events = e :: rest → e.wf s.params = true ∧ e.readsWritten s.uvc = true) → ∃ t, step s = .next t

/-- The result of a command does not depend on how the agents interleave: without a reset, a run is either still at one of the
sequencer's states of the command, or has passed through the command's one end (from R61, R65, R111 and R143). -/
def Obligations.ResultDoesNotDependOnSchedule : Prop :=
  ∀ (s t : State) (n k : Nat) (v : Uvc), s.Inv → s.uvc.state = .busy → CompletesAfter s.params k s.uvc v → (∀ e ∈ s.events, e ≠ .reset) →
    Host.Core.run Sys2Proof.core n s = .next t →
    (∃ j, j < k ∧ seqRun s.params j s.uvc = .ok t.uvc) ∨
    ∃ (m : Nat) (x : State), m ≤ n ∧ Host.Core.run Sys2Proof.core m s = .next x ∧ x.uvc = v

/-- A command in progress completes, within as many steps as the schedule is long, when the schedule gives the sequencer the turns R172
counts: 1 + OBUF_DEPTH for an encode, IN_LEN + 1 for a decode. (From R172, for every schedule, fair or not; log 8.) -/
def Obligations.CommandCompletesUnderFairSchedule : Prop :=
  ∀ s : State, s.Inv → s.uvc.state = .busy → (s.uvc.phase = .decStep → s.uvc.inputWritten) →
    (∀ e ∈ s.events, e.harmless s.params = true) → stepsLeft s.params s.uvc ≤ s.schedule.count .sequencer →
    ∃ (m : Nat) (t : State), m ≤ s.schedule.length ∧ Host.Core.run Sys2Proof.core m s = .next t ∧
      (t.uvc.state = .ok ∨ t.uvc.state = .err)

/-- Results stay valid until the next issue or reset: with no command in progress, a step whose event is neither a write to CMD nor a reset
leaves every result register, the status and OUT as they are (from R163, R186, R194 and R210). -/
def Obligations.ResultsStayUntilIssueOrReset : Prop :=
  ∀ s t : State, s.Inv → s.uvc.state ≠ .busy → (∀ c rest, s.events ≠ .write (.cmd c) :: rest) → (∀ rest, s.events ≠ .reset :: rest) →
    step s = .next t →
    t.uvc.state = s.uvc.state ∧ t.uvc.cause = s.uvc.cause ∧ t.uvc.valueOut = s.uvc.valueOut ∧ t.uvc.outLen = s.uvc.outLen ∧
      t.uvc.consumed = s.uvc.consumed ∧ t.uvc.outBuf = s.uvc.outBuf ∧ t.uvc.phase = s.uvc.phase

/-- STATUS.STATE is written only by an issue, by a completion and by a reset, and a completion ends in OK or ERR with the sequencer at rest
(from R24 and R169). -/
def Obligations.StateChangesOnlyAtIssueCompletionReset : Prop :=
  ∀ s t : State, s.Inv → step s = .next t → t.uvc.state ≠ s.uvc.state →
    (∃ c rest, s.events = .write (.cmd c) :: rest ∧ s.uvc.state ≠ .busy ∧ (t.uvc.state = .busy ∨ t.uvc.state = .err)) ∨
    (∃ rest, s.events = .reset :: rest ∧ t.uvc.state = .idle) ∨
    (s.uvc.state = .busy ∧ t.uvc.phase = .none ∧ (t.uvc.state = .ok ∨ t.uvc.state = .err))

/-- What a read sees while a command is in progress, after any number of its steps (from R211): CAUSE NONE, the results 0, and during an
encode OUT[0..IDX-1] new and the rest as before the command. -/
def Obligations.ViewWhileBusy : Prop :=
  ∀ (i : Instr) (s t : State) (k : Nat) (u : Uvc), s.params.wf = true → s.uvc.valueIn < 2 ^ s.params.w → s.uvc.state ≠ .busy →
    exec i s = .next t → seqRun s.params k t.uvc = .ok u → u.state = .busy →
    u.cause = .none ∧ u.valueOut = 0 ∧ u.outLen = 0 ∧ u.consumed = 0 ∧
    (i.dir = .decode → u.outBuf = s.uvc.outBuf) ∧
    (i.dir = .encode → ∀ j, Memory.read u.outBuf j =
      if j < u.idx then (encBytes s.uvc.valueIn)[j]? else Memory.read s.uvc.outBuf j)

/-- A step of the world outside runs its next event: where the turn is the outside's, the step is what the event does, with the event
taken off and the choice of turn used up; a host write is HostWrite, a host read is HostRead and a reset the reset event; an action the
interface does not have is refused. Who has the turn when the schedule is exhausted is a free value, and the statement holds for both
(from R57, R61, R164, R166, R167, R200; the event list, the schedule and the refusal are the model's, log 7, 8 and 14). -/
def Obligations.StepRunsPendingEvent : Prop :=
  (∀ (s : State) (e : Event) (rest : List Event), s.events = e :: rest →
    (e.wf s.params = true →
      (s.uvc.phase = .none → step s = runEvent e { s with events := rest }) ∧
      (s.uvc.phase ≠ .none → ∀ l, s.schedule = .external :: l → step s = runEvent e { s with events := rest, schedule := l }) ∧
      (s.uvc.phase ≠ .none → s.schedule = [] →
        step s = match freeTurn s.fresh with
          | .external => runEvent e { s with events := rest, fresh := s.fresh + 1 }
          | .sequencer => sequencerTurn { s with fresh := s.fresh + 1 })) ∧
    (e.wf s.params = false → s.uvc.phase = .none → step s = .refused (.noSuchHostAction e)) ∧
    (s.uvc.phase ≠ .none → ∀ l, s.schedule = .sequencer :: l → step s = sequencerTurn { s with schedule := l })) ∧
  ∀ s : State, (∀ w : HostWrite, runEvent (.write w) s = hostWrite w s) ∧ (∀ r : HostRead, runEvent (.read r) s = hostRead r s) ∧
    runEvent .reset s = .next (resetEvent s)

/-- Weak fairness: while a command is in progress and the outside neither resets, nor stops the run, nor asks for a missing action, the
sequencer's turn comes, with the UVC as it was; and so every command in progress completes, in at most 1 + OBUF_DEPTH sequencer steps for
an encode and IN_LEN + 1 for a decode (from R172; that the finite schedule comes first is the model's choice, log 8). -/
def Obligations.SequencerIsWeaklyFair : Prop :=
  (∀ s : State, s.uvc.state = .busy → s.uvc.phase ≠ .none → (∀ e ∈ s.events, e.harmless s.params = true) →
    ∃ (m : Nat) (t : State), Host.Core.run Sys2Proof.core m s = .next t ∧ t.uvc = s.uvc ∧ (chooseTurn t).1 = some .sequencer) ∧
  ∀ s : State, s.Inv → s.uvc.state = .busy → (s.uvc.phase = .decStep → s.uvc.inputWritten) →
    (∀ e ∈ s.events, e.harmless s.params = true) →
    ∃ (k : Nat) (v : Uvc), k ≤ stepsLeft s.params s.uvc ∧ CompletesAfter s.params k s.uvc v ∧ (v.state = .ok ∨ v.state = .err) ∧
      ∃ (m : Nat) (t : State), Host.Core.run Sys2Proof.core m s = .next t ∧ t.uvc = v

/-- The clauses of R39 as the rule writes them, and how far each holds (from R39, R31 and R164; log 17). The state after reset meets them all.
In every state that meets the invariant all of them hold but perhaps CONSUMED <= IN_LEN in the state OK. That clause holds in the step in
which a command ends with OK, across every step but a host write of IN_LEN, and a step from a state that meets all the clauses gives one
that does, except exactly where the host writes a value below CONSUMED to IN_LEN in the state OK. -/
def Obligations.ConsumedWithinInLenUntilRewritten : Prop :=
  (∀ s t : State, s.Inv → step s = .next t → s.uvc.state ≠ .ok → t.uvc.state = .ok → t.uvc.consumed.toNat ≤ t.uvc.inLen.toNat) ∧
  (∀ s t : State, s.Inv → step s = .next t → s.uvc.state = .ok → t.uvc.state = .ok → s.uvc.consumed.toNat ≤ s.uvc.inLen.toNat →
    (∀ v rest, s.events ≠ .write (.inLen v) :: rest) → t.uvc.consumed.toNat ≤ t.uvc.inLen.toNat) ∧
  (∀ p : Params, p.wf = true → (State.resetWith p).uvc.R39 p) ∧
  (∀ (p : Params) (u : Uvc), p.wf = true → u.Inv p → (u.R39 p ↔ (u.state = .ok → u.consumed.toNat ≤ u.inLen.toNat))) ∧
  ∀ s t : State, s.Inv → s.uvc.R39 s.params → step s = .next t →
    (t.uvc.R39 t.params ↔
      ¬ (s.uvc.state = .ok ∧ ∃ (v : Half) (rest : List Event), s.events = .write (.inLen v) :: rest ∧ v.toNat < s.uvc.consumed.toNat))

/-- Minimality and ranges: the length of EncBytes(V) is max(1, ceil(bitlen(V)/7)); for V >= 1 the group of its first byte is nonzero, so that
byte is not 0x80; the values that take exactly n bytes, and the five ranges written out; ENC with MAXFIN(k) succeeds if and only if
nbytes(VALUE_IN) <= k; and within a bound the encoder accepts exactly the values whose canonical encodings the decoder accepts (from R113,
which the spec derives from R101, R104 and R105). -/
def Obligations.MinimalityAndRanges : Prop :=
  (∀ v : Nat, (encBytes v).length = nbytes v ∧ nbytes v = max 1 ((bitlen v + 6) / 7) ∧
    (1 ≤ v → ∃ b : Byte, (encBytes v)[0]? = some b ∧ dataGroup b ≠ 0 ∧ b ≠ 0x80)) ∧
  (∀ n v : Nat, 1 ≤ n → (nbytes v = n ↔ byteRange n v)) ∧
  (∀ r ∈ [(1, 0, 0x7F), (2, 0x80, 0x3FFF), (3, 0x4000, 0x1FFFFF), (4, 0x200000, 0xFFFFFFF), (5, 0x10000000, 0x7FFFFFFFF)],
    ∀ v : Nat, nbytes v = r.1 ↔ r.2.1 ≤ v ∧ v ≤ r.2.2) ∧
  (∀ (s : State) (k : Half), s.params.wf = true → s.uvc.valueIn < 2 ^ s.params.w → s.uvc.state ≠ .busy →
    s.uvc.maxReg = maxOfWord (maxFin k) →
    ∃ t, exec .enc s = .next t ∧
      ((∃ n v, CompletesAfter s.params n t.uvc v ∧ v.state = .ok) ↔ nbytes s.uvc.valueIn ≤ k.toNat)) ∧
  ∀ (p : Params) (b : Bound) (v : Nat), p.wf = true → v < 2 ^ p.w → (encoderAccepts b v ↔ decoderAccepts p b v)
end

