-- ==== Sys2Proof/Laws/Datapath.lean ====
section
/-! SUPPORT. The datapath in plain arithmetic: what packing, unpacking, extraction and assembly compute. -/

namespace Sys2Proof.Machine

theorem contBit_pack (c : Bool) (g : BitVec 7) : contBit (pack c g) = c := by
  cases c <;> simp [contBit, pack]

theorem dataGroup_pack (c : Bool) (g : BitVec 7) : dataGroup (pack c g) = g := by
  revert c g; decide

/-- Extraction is division and remainder (R100). -/
theorem group_toNat (v : Nat) (k : Nat) : (group v k).toNat = v / 2 ^ (7 * k) % 128 := by
  have h : v >>> (7 * k) &&& 0x7F = v / 2 ^ (7 * k) % 128 := by
    rw [show (0x7F : Nat) = 2 ^ 7 - 1 from rfl, Nat.and_two_pow_sub_one_eq_mod, Nat.shiftRight_eq_div_pow]
  simp [group, h]

/-- Assembly is multiplication by 128 and addition of the data group (R131). -/
theorem assemble_eq (acc : Nat) (b : Byte) : assemble acc b = acc * 128 + (dataGroup b).toNat := by
  have h : (dataGroup b).toNat < 2 ^ 7 := (dataGroup b).isLt
  rw [assemble, Nat.shiftLeft_eq, Nat.mul_comm, ← Nat.two_pow_add_eq_or_of_lt h]

theorem dataGroup_toNat (b : Byte) : (dataGroup b).toNat = b.toNat % 128 := by
  simp [dataGroup]

theorem dataGroup_lt (b : Byte) : (dataGroup b).toNat < 128 := (dataGroup b).isLt

theorem contBit_iff (b : Byte) : contBit b = true ↔ 128 ≤ b.toNat := by
  revert b; decide

/-- The bit length places a positive value between two powers of two (R7). -/
theorem bitlen_le_iff (v : Nat) (n : Nat) : bitlen v ≤ n ↔ v < 2 ^ n := by
  unfold bitlen
  split
  · simp_all
  · rw [Nat.succ_le_iff, Nat.log2_lt ‹_›]

theorem nbytes_pos (v : Nat) : 1 ≤ nbytes v := le_max_left _ _

/-- Below the number of bytes there are groups only while higher groups remain (R101). -/
theorem nbytes_le_of_lt {v n : Nat} (hn : 1 ≤ n) (h : v < 2 ^ (7 * n)) : nbytes v ≤ n := by
  have := (bitlen_le_iff v (7 * n)).2 h
  unfold nbytes; omega

theorem lt_pow_nbytes (v : Nat) : v < 2 ^ (7 * nbytes v) := by
  rw [← bitlen_le_iff]; unfold nbytes; omega

@[simp] theorem encBytes_length (v : Nat) : (encBytes v).length = nbytes v := by simp [encBytes]

theorem encBytes_getElem? {v i : Nat} (h : i < nbytes v) :
    (encBytes v)[i]? = some (pack (cont i (nbytes v)) (group v (nbytes v - 1 - i))) := by
  simp [encBytes, h]

theorem exceedsBound_unb (n : Nat) : exceedsBound .unb n = false := rfl

theorem exceedsBound_fin (k : Half) (n : Nat) : exceedsBound (.fin k) n = true ↔ k.toNat < n := by
  simp [exceedsBound]

/-- The encoder accepts exactly the values whose count of bytes passes the bound (R105). -/
theorem encoderAccepts_iff (b : Bound) (v : Nat) : encoderAccepts b v ↔ exceedsBound b (nbytes v) = false := by
  unfold encoderAccepts encodeFn
  cases exceedsBound b (nbytes v) <;> simp

/-- OUT_LEN holds every count its 16 bits can (R107). -/
theorem outLenOf_toNat {n : Nat} (h : n < 2 ^ 16) : (outLenOf n).toNat = n := by
  simp only [outLenOf, h, if_true, BitVec.toNat_ofNat, Nat.mod_eq_of_lt h]

/-- The budget is spent exactly at Fin 0 (R135). -/
theorem budgetSpent_iff (b : Bound) : budgetSpent b = true ↔ b = .fin 0 := by
  cases b <;> simp [budgetSpent]

/-- Decrementing a finite budget that is not spent takes one off it (R133). -/
theorem decBudget_fin {k : Half} (h : k ≠ 0) : ∃ l : Half, decBudget (.fin k) = .fin l ∧ l.toNat + 1 = k.toNat := by
  refine ⟨k - 1, rfl, ?_⟩
  have : k.toNat ≠ 0 := fun h0 => h (BitVec.eq_of_toNat_eq (by simpa using h0))
  have hk := k.isLt
  rw [BitVec.toNat_sub]
  simp
  omega

end Sys2Proof.Machine
end

