-- ==== Sys2Proof/Laws/WellFormed.lean ====
section
/-! SUPPORT. What a well-formed configuration says in arithmetic. -/

namespace Sys2Proof

theorem Params.wf_iff (p : Params) :
    p.wf = true ↔ 35 ≤ p.w ∧ 1 ≤ p.ibufDepth ∧ p.ibufDepth ≤ 65535 := by
  simp [Params.wf, and_assoc]

/-- A 16-bit register counts every byte of OUT for every W up to 458745 (log 2). -/
theorem Params.obufDepth_lt {p : Params} (h : p.w ≤ Config.countableWidth) : p.obufDepth < 2 ^ 16 := by
  unfold Config.countableWidth at h; unfold Params.obufDepth; omega

/-- The longest encoding of a W-bit value fits in OUT (R101). -/
theorem Params.nbytes_le_obufDepth {p : Params} (h : p.wf = true) {v : Nat} (hv : v < 2 ^ p.w) : Machine.nbytes v ≤ p.obufDepth := by
  have := (Machine.bitlen_le_iff v p.w).2 hv
  have := (Params.wf_iff p).1 h
  unfold Machine.nbytes Params.obufDepth; omega

end Sys2Proof
end

