-- ==== Sys2Proof/Laws/Invariant.lean ====
section
/-! SUPPORT. What the invariant says of the counts. -/

namespace Sys2Proof.Machine

/-- IDX fits the 16 bits R37 gives it, for every W up to 458745 (log 4). -/
theorem Uvc.Inv.idx_lt {p : Params} {u : Uvc} (h : u.Inv p) (hw : p.w ≤ Config.countableWidth) : u.idx < 2 ^ 16 := by
  have := Params.obufDepth_lt hw
  rcases h.idx_le with hi | hi <;> omega

/-- NB is within OUT while an encode writes (R38, R39). -/
theorem Uvc.Inv.nb_le {p : Params} {u : Uvc} (hp : p.wf = true) (h : u.Inv p) (he : u.phase = .encEmit) :
    1 ≤ u.nb ∧ u.nb ≤ p.obufDepth := by
  rw [(h.enc_emit he).1]
  exact ⟨nbytes_pos _, Params.nbytes_le_obufDepth hp h.valueIn_lt⟩

end Sys2Proof.Machine
end

