-- ==== Sys2Proof/Laws/Memory.lean ====
section
/-! SUPPORT. The laws of the byte buffers: a read after a write, and that a write keeps the canonical form. -/

namespace Sys2Proof.Machine

@[simp] theorem Memory.read_nil (i : Nat) : Memory.read [] i = none := rfl

@[simp] theorem Memory.read_write_same (m : Memory) (i : Nat) (v : Byte) : Memory.read (Memory.write m i v) i = some v := by
  induction m with
  | nil => simp [Memory.write, Memory.read]
  | cons c m ih =>
    obtain ⟨j, b⟩ := c
    unfold Memory.write
    split
    · simp [Memory.read]
    · split
      · simp [Memory.read]
      · simp [Memory.read, *]

theorem Memory.read_write_other (m : Memory) {i k : Nat} (v : Byte) (h : k ≠ i) :
    Memory.read (Memory.write m i v) k = Memory.read m k := by
  induction m with
  | nil => simp [Memory.write, Memory.read, h]
  | cons c m ih =>
    obtain ⟨j, b⟩ := c
    unfold Memory.write
    split
    · simp [Memory.read, h]
    · split
      · subst_vars; simp [Memory.read, h]
      · simp only [Memory.read, ih]

/-- One read after one write, at any two indices. -/
theorem Memory.read_write (m : Memory) (i k : Nat) (v : Byte) :
    Memory.read (Memory.write m i v) k = if k = i then some v else Memory.read m k := by
  split
  · subst_vars; simp
  · exact Memory.read_write_other m v ‹_›

@[simp] theorem Memory.below_nil (d : Nat) : Memory.below [] d = true := rfl

theorem Memory.write_below {m : Memory} {d i : Nat} (v : Byte) (hm : Memory.below m d = true) (hi : i < d) :
    Memory.below (Memory.write m i v) d = true := by
  induction m with
  | nil => simpa [Memory.write, Memory.below] using hi
  | cons c m ih =>
    obtain ⟨j, b⟩ := c
    simp only [Memory.below, List.all_cons, Bool.and_eq_true, decide_eq_true_eq] at hm
    unfold Memory.write
    split
    · simp [Memory.below, hm, hi]
    · split
      · simp [Memory.below, hm, hi]
      · simpa [Memory.below, hm] using ih hm.2

/-- A buffer is canonical when its tail is and its first index is below the tail's first. -/
theorem Memory.wf_cons (i : Nat) (b : Byte) (m : Memory) :
    Memory.wf ((i, b) :: m) = true ↔ (∀ c ∈ m.head?, i < c.1) ∧ Memory.wf m = true := by
  cases m with
  | nil => simp [Memory.wf]
  | cons c m => simp [Memory.wf]

theorem Memory.write_head (m : Memory) (i : Nat) (v : Byte) :
    (Memory.write m i v).head? = some (i, v) ∨ (Memory.write m i v).head? = m.head? := by
  cases m with
  | nil => exact .inl rfl
  | cons c m => obtain ⟨j, b⟩ := c; unfold Memory.write; split <;> [simp; split <;> simp]

/-- A write keeps the canonical form. -/
theorem Memory.write_wf {m : Memory} (i : Nat) (v : Byte) (hm : Memory.wf m = true) : Memory.wf (Memory.write m i v) = true := by
  induction m with
  | nil => rfl
  | cons c m ih =>
    obtain ⟨j, b⟩ := c
    obtain ⟨hj, hm'⟩ := (Memory.wf_cons j b m).1 hm
    unfold Memory.write
    split
    · exact (Memory.wf_cons ..).2 ⟨by simpa using ‹i < j›, hm⟩
    · split
      · subst_vars; exact (Memory.wf_cons ..).2 ⟨hj, hm'⟩
      · refine (Memory.wf_cons ..).2 ⟨fun c hc => ?_, ih hm'⟩
        rcases Memory.write_head m i v with h | h <;> rw [h] at hc
        · obtain rfl : (i, v) = c := by simpa using hc
          omega
        · exact hj c hc

end Sys2Proof.Machine
end

