-- ==== Sys2Proof/Laws/State.lean ====
section
/-! SUPPORT. One lemma per field of each update of the state, so that no proof unfolds a record update. -/

namespace Sys2Proof.Machine

/-! ## The updates of one UVC -/

@[simp] theorem raiseBadArgument_state (c : Cause) (u : Uvc) : (raiseBadArgument c u).state = .err := rfl
@[simp] theorem raiseBadArgument_cause (c : Cause) (u : Uvc) : (raiseBadArgument c u).cause = c := rfl
@[simp] theorem raiseBadArgument_valueIn (c : Cause) (u : Uvc) : (raiseBadArgument c u).valueIn = u.valueIn := rfl
@[simp] theorem raiseBadArgument_maxReg (c : Cause) (u : Uvc) : (raiseBadArgument c u).maxReg = u.maxReg := rfl
@[simp] theorem raiseBadArgument_inLen (c : Cause) (u : Uvc) : (raiseBadArgument c u).inLen = u.inLen := rfl
@[simp] theorem raiseBadArgument_valueOut (c : Cause) (u : Uvc) : (raiseBadArgument c u).valueOut = 0 := rfl
@[simp] theorem raiseBadArgument_outLen (c : Cause) (u : Uvc) : (raiseBadArgument c u).outLen = 0 := rfl
@[simp] theorem raiseBadArgument_consumed (c : Cause) (u : Uvc) : (raiseBadArgument c u).consumed = 0 := rfl
@[simp] theorem raiseBadArgument_inBuf (c : Cause) (u : Uvc) : (raiseBadArgument c u).inBuf = u.inBuf := rfl
@[simp] theorem raiseBadArgument_outBuf (c : Cause) (u : Uvc) : (raiseBadArgument c u).outBuf = u.outBuf := rfl
@[simp] theorem raiseBadArgument_phase (c : Cause) (u : Uvc) : (raiseBadArgument c u).phase = .none := rfl
@[simp] theorem raiseBadArgument_acc (c : Cause) (u : Uvc) : (raiseBadArgument c u).acc = u.acc := rfl
@[simp] theorem raiseBadArgument_bud (c : Cause) (u : Uvc) : (raiseBadArgument c u).bud = u.bud := rfl
@[simp] theorem raiseBadArgument_idx (c : Cause) (u : Uvc) : (raiseBadArgument c u).idx = u.idx := rfl
@[simp] theorem raiseBadArgument_nb (c : Cause) (u : Uvc) : (raiseBadArgument c u).nb = u.nb := rfl

@[simp] theorem completeOk_state (u : Uvc) : (completeOk u).state = .ok := rfl
@[simp] theorem completeOk_cause (u : Uvc) : (completeOk u).cause = u.cause := rfl
@[simp] theorem completeOk_valueIn (u : Uvc) : (completeOk u).valueIn = u.valueIn := rfl
@[simp] theorem completeOk_maxReg (u : Uvc) : (completeOk u).maxReg = u.maxReg := rfl
@[simp] theorem completeOk_inLen (u : Uvc) : (completeOk u).inLen = u.inLen := rfl
@[simp] theorem completeOk_valueOut (u : Uvc) : (completeOk u).valueOut = u.valueOut := rfl
@[simp] theorem completeOk_outLen (u : Uvc) : (completeOk u).outLen = u.outLen := rfl
@[simp] theorem completeOk_consumed (u : Uvc) : (completeOk u).consumed = u.consumed := rfl
@[simp] theorem completeOk_inBuf (u : Uvc) : (completeOk u).inBuf = u.inBuf := rfl
@[simp] theorem completeOk_outBuf (u : Uvc) : (completeOk u).outBuf = u.outBuf := rfl
@[simp] theorem completeOk_phase (u : Uvc) : (completeOk u).phase = .none := rfl
@[simp] theorem completeOk_acc (u : Uvc) : (completeOk u).acc = u.acc := rfl
@[simp] theorem completeOk_bud (u : Uvc) : (completeOk u).bud = u.bud := rfl
@[simp] theorem completeOk_idx (u : Uvc) : (completeOk u).idx = u.idx := rfl
@[simp] theorem completeOk_nb (u : Uvc) : (completeOk u).nb = u.nb := rfl

@[simp] theorem startCommand_state (d : Dir) (b : BSel) (u : Uvc) : (startCommand d b u).state = .busy := rfl
@[simp] theorem startCommand_cause (d : Dir) (b : BSel) (u : Uvc) : (startCommand d b u).cause = .none := rfl
@[simp] theorem startCommand_valueIn (d : Dir) (b : BSel) (u : Uvc) : (startCommand d b u).valueIn = u.valueIn := rfl
@[simp] theorem startCommand_maxReg (d : Dir) (b : BSel) (u : Uvc) : (startCommand d b u).maxReg = u.maxReg := rfl
@[simp] theorem startCommand_inLen (d : Dir) (b : BSel) (u : Uvc) : (startCommand d b u).inLen = u.inLen := rfl
@[simp] theorem startCommand_valueOut (d : Dir) (b : BSel) (u : Uvc) : (startCommand d b u).valueOut = 0 := rfl
@[simp] theorem startCommand_outLen (d : Dir) (b : BSel) (u : Uvc) : (startCommand d b u).outLen = 0 := rfl
@[simp] theorem startCommand_consumed (d : Dir) (b : BSel) (u : Uvc) : (startCommand d b u).consumed = 0 := rfl
@[simp] theorem startCommand_inBuf (d : Dir) (b : BSel) (u : Uvc) : (startCommand d b u).inBuf = u.inBuf := rfl
@[simp] theorem startCommand_outBuf (d : Dir) (b : BSel) (u : Uvc) : (startCommand d b u).outBuf = u.outBuf := rfl
@[simp] theorem startCommand_phase (d : Dir) (b : BSel) (u : Uvc) : (startCommand d b u).phase = startPhase d := rfl
@[simp] theorem startCommand_acc (d : Dir) (b : BSel) (u : Uvc) : (startCommand d b u).acc = 0 := rfl
@[simp] theorem startCommand_bud (d : Dir) (b : BSel) (u : Uvc) : (startCommand d b u).bud = boundOf b u.maxReg := rfl
@[simp] theorem startCommand_idx (d : Dir) (b : BSel) (u : Uvc) : (startCommand d b u).idx = 0 := rfl
@[simp] theorem startCommand_nb (d : Dir) (b : BSel) (u : Uvc) : (startCommand d b u).nb = u.nb := rfl

@[simp] theorem resetUvc_state (p : Params) (n : Nat) : (resetUvc p n).state = .idle := rfl
@[simp] theorem resetUvc_cause (p : Params) (n : Nat) : (resetUvc p n).cause = .none := rfl
@[simp] theorem resetUvc_valueIn (p : Params) (n : Nat) : (resetUvc p n).valueIn = 0 := rfl
@[simp] theorem resetUvc_maxReg (p : Params) (n : Nat) : (resetUvc p n).maxReg = { limit := 0, unb := false } := rfl
@[simp] theorem resetUvc_inLen (p : Params) (n : Nat) : (resetUvc p n).inLen = 0 := rfl
@[simp] theorem resetUvc_valueOut (p : Params) (n : Nat) : (resetUvc p n).valueOut = 0 := rfl
@[simp] theorem resetUvc_outLen (p : Params) (n : Nat) : (resetUvc p n).outLen = 0 := rfl
@[simp] theorem resetUvc_consumed (p : Params) (n : Nat) : (resetUvc p n).consumed = 0 := rfl
@[simp] theorem resetUvc_inBuf (p : Params) (n : Nat) : (resetUvc p n).inBuf = [] := rfl
@[simp] theorem resetUvc_outBuf (p : Params) (n : Nat) : (resetUvc p n).outBuf = [] := rfl
@[simp] theorem resetUvc_phase (p : Params) (n : Nat) : (resetUvc p n).phase = .none := rfl
@[simp] theorem resetUvc_acc (p : Params) (n : Nat) : (resetUvc p n).acc = Config.freeAcc n % 2 ^ p.w := rfl
@[simp] theorem resetUvc_bud (p : Params) (n : Nat) : (resetUvc p n).bud = Config.freeBud n := rfl
@[simp] theorem resetUvc_idx (p : Params) (n : Nat) : (resetUvc p n).idx = (Config.freeIdx n).toNat := rfl
@[simp] theorem resetUvc_nb (p : Params) (n : Nat) : (resetUvc p n).nb = Config.freeNb n := rfl

/-! ## The updates of the machine -/

@[simp] theorem resetEvent_params (s : State) : (resetEvent s).params = s.params := rfl
@[simp] theorem resetEvent_uvc (s : State) : (resetEvent s).uvc = resetUvc s.params s.fresh := rfl
@[simp] theorem resetEvent_events (s : State) : (resetEvent s).events = s.events := rfl
@[simp] theorem resetEvent_schedule (s : State) : (resetEvent s).schedule = s.schedule := rfl
@[simp] theorem resetEvent_fresh (s : State) : (resetEvent s).fresh = s.fresh + 1 := rfl
@[simp] theorem resetEvent_readBack (s : State) : (resetEvent s).readBack = s.readBack := rfl

@[simp] theorem State.withCommand_params (s : State) (c : Byte) : (s.withCommand c).params = s.params := rfl
@[simp] theorem State.withCommand_uvc (s : State) (c : Byte) : (s.withCommand c).uvc = s.uvc := rfl
@[simp] theorem State.withCommand_events (s : State) (c : Byte) : (s.withCommand c).events = .write (.cmd c) :: s.events := rfl
@[simp] theorem State.withCommand_schedule (s : State) (c : Byte) : (s.withCommand c).schedule = if s.sequencerReady then .external :: s.schedule else s.schedule := rfl
@[simp] theorem State.withCommand_fresh (s : State) (c : Byte) : (s.withCommand c).fresh = s.fresh := rfl
@[simp] theorem State.withCommand_readBack (s : State) (c : Byte) : (s.withCommand c).readBack = s.readBack := rfl

@[simp] theorem State.hostStore_params (f : Uvc → Uvc) (s : State) : (s.hostStore f).params = s.params := by
  unfold State.hostStore; split <;> rfl
@[simp] theorem State.hostStore_events (f : Uvc → Uvc) (s : State) : (s.hostStore f).events = s.events := by
  unfold State.hostStore; split <;> rfl
@[simp] theorem State.hostStore_schedule (f : Uvc → Uvc) (s : State) : (s.hostStore f).schedule = s.schedule := by
  unfold State.hostStore; split <;> rfl
@[simp] theorem State.hostStore_fresh (f : Uvc → Uvc) (s : State) : (s.hostStore f).fresh = s.fresh := by
  unfold State.hostStore; split <;> rfl
@[simp] theorem State.hostStore_readBack (f : Uvc → Uvc) (s : State) : (s.hostStore f).readBack = s.readBack := by
  unfold State.hostStore; split <;> rfl

/-- A host write while BUSY is dropped (R165). -/
theorem State.hostStore_busy (f : Uvc → Uvc) {s : State} (h : s.uvc.state = .busy) : s.hostStore f = s := if_pos h

/-- A host write while not BUSY takes effect (R164). -/
theorem State.hostStore_free (f : Uvc → Uvc) {s : State} (h : s.uvc.state ≠ .busy) : s.hostStore f = { s with uvc := f s.uvc } := if_neg h

end Sys2Proof.Machine
end

