-- ==== Sys2Proof/Laws/Ops.lean ====
section
/-! SUPPORT. For each shared operation, once, everything it can do: the inversion lemmas later proofs cite. -/

namespace Sys2Proof.Machine

/-- MemRead answers a byte only inside the input, and the byte written there (R51). -/
theorem memRead_ok_iff (p : Params) (u : Uvc) (i : Nat) (b : Byte) :
    memRead p u i = .ok b ↔ i < u.inLen.toNat ∧ u.inLen.toNat ≤ p.ibufDepth ∧ Memory.read u.inBuf i = some b := by
  unfold memRead
  split
  · next h => cases hm : Memory.read u.inBuf i <;> simp [h]
  · next h => simp; intro h1 h2; exact absurd ⟨h1, h2⟩ h

/-- MemRead stops on an unwritten byte, or outside the input (R51, R203). -/
theorem memRead_error (p : Params) (u : Uvc) (i : Nat) (f : Fault) (h : memRead p u i = .error f) :
    (f = .unwrittenByte .input i ∧ Memory.read u.inBuf i = none) ∨
    (f = .indexOutsideBuffer .input i ∧ ¬ (i < u.inLen.toNat ∧ u.inLen.toNat ≤ p.ibufDepth)) := by
  unfold memRead at h
  split at h
  · cases hm : Memory.read u.inBuf i <;> simp [hm] at h
    exact .inl ⟨h.symm, rfl⟩
  · simp only [Except.error.injEq] at h
    exact .inr ⟨h.symm, ‹_›⟩

/-- MemWrite inside OUT (R52). -/
theorem memWrite_ok {p : Params} {u : Uvc} {i : Nat} (v : Byte) (h : i < p.obufDepth) :
    memWrite p u i v = .ok { u with outBuf := Memory.write u.outBuf i v } := if_pos h

/-- The issue of a decode that breaks the input-length contract (R162). -/
theorem issue_contract {p : Params} {d : Dir} {u : Uvc} (b : BSel) (hd : d = .decode) (h : p.ibufDepth < u.inLen.toNat) :
    issue p d b u = raiseBadArgument .contract u := if_pos ⟨hd, h⟩

/-- Every other issue starts the command (R160). -/
theorem issue_start {p : Params} {d : Dir} {u : Uvc} (b : BSel) (h : d = .decode → u.inLen.toNat ≤ p.ibufDepth) :
    issue p d b u = startCommand d b u := if_neg fun hc => absurd (h hc.1) (by omega)

/-- What exec does: a write of the command's word, dropped while BUSY, and otherwise the issue (R160, R165). -/
theorem exec_eq (i : Instr) (s : State) : exec i s = .next (s.hostStore (issue s.params i.dir i.bsel)) := by
  cases i <;> rfl

/-- PHASE alone selects the sequencer's step (R171). -/
theorem seqStep_none (p : Params) {u : Uvc} (h : u.phase = .none) : seqStep p u = .ok u := by simp [seqStep, h]

theorem seqStep_encSize (p : Params) {u : Uvc} (h : u.phase = .encSize) : seqStep p u = .ok (encSizeStep u) := by simp [seqStep, h]

theorem seqStep_encEmit (p : Params) {u : Uvc} (h : u.phase = .encEmit) : seqStep p u = encEmitStep p u := by simp [seqStep, h]

theorem seqStep_decStep (p : Params) {u : Uvc} (h : u.phase = .decStep) : seqStep p u = decStep p u := by simp [seqStep, h]

@[simp] theorem seqRun_zero (p : Params) (u : Uvc) : seqRun p 0 u = .ok u := rfl

/-- A run of one more step is that step and then the run (R57). -/
theorem seqRun_succ {p : Params} {u v : Uvc} (k : Nat) (h : seqStep p u = .ok v) : seqRun p (k + 1) u = seqRun p k v := by
  simp [seqRun, h]

/-- The two ends of the ENC_SIZE step (R106). -/
theorem encSizeStep_cases (u : Uvc) :
    (exceedsBound u.bud (nbytes u.valueIn) = true ∧ encSizeStep u = raiseBadArgument .encBound u) ∨
    (exceedsBound u.bud (nbytes u.valueIn) = false ∧
      encSizeStep u = { u with nb := nbytes u.valueIn, idx := 0, phase := .encEmit }) := by
  unfold encSizeStep
  cases h : exceedsBound u.bud (nbytes u.valueIn) <;> simp

/-- The ENC_EMIT step inside OUT: the byte is written, and the command goes on or completes (R107). -/
theorem encEmitStep_cases {p : Params} {u : Uvc} (h : u.idx < p.obufDepth) :
    (u.idx + 1 ≠ u.nb ∧ encEmitStep p u = .ok { u with
      outBuf := Memory.write u.outBuf u.idx (emitByte u u.idx), idx := u.idx + 1 }) ∨
    (u.idx + 1 = u.nb ∧ encEmitStep p u = .ok { u with
      outBuf := Memory.write u.outBuf u.idx (emitByte u u.idx), idx := u.idx + 1, outLen := outLenOf u.nb,
      state := .ok, phase := .none }) := by
  unfold encEmitStep
  rw [memWrite_ok _ h]
  by_cases hn : u.idx + 1 = u.nb
  · exact .inr ⟨hn, by simp [hn, completeOk]⟩
  · exact .inl ⟨hn, by simp [hn]⟩

/-- What the DEC_STEP step can do when it answers (R137). -/
theorem decStep_cases {p : Params} {u v : Uvc} (h : decStep p u = .ok v) :
    (u.bud = .fin 0 ∧ v = raiseBadArgument .decBound u) ∨
    (u.bud ≠ .fin 0 ∧ u.idx = u.inLen.toNat ∧ v = raiseBadArgument .decTrunc u) ∨
    (u.bud ≠ .fin 0 ∧ u.idx ≠ u.inLen.toNat ∧ ∃ b, memRead p u u.idx = .ok b ∧
      ((2 ^ (p.w - 7) ≤ u.acc ∧ v = raiseBadArgument .decCapacity u) ∨
       (u.acc < 2 ^ (p.w - 7) ∧ contBit b = true ∧
          v = { u with acc := assemble u.acc b, idx := u.idx + 1, bud := decBudget u.bud }) ∨
       (u.acc < 2 ^ (p.w - 7) ∧ contBit b = false ∧
          v = { u with acc := assemble u.acc b, idx := u.idx + 1, valueOut := assemble u.acc b, consumed := BitVec.ofNat 16 (u.idx + 1),
                       state := .ok, phase := .none }))) := by
  unfold decStep at h
  split at h
  · next hb => exact .inl ⟨(budgetSpent_iff _).1 hb, by simpa using h.symm⟩
  · next hb =>
    have hb' : u.bud ≠ .fin 0 := fun e => hb ((budgetSpent_iff _).2 e)
    split at h
    · next hi => exact .inr (.inl ⟨hb', hi, by simpa using h.symm⟩)
    · next hi =>
      refine .inr (.inr ⟨hb', hi, ?_⟩)
      cases hr : memRead p u u.idx with
      | error f => simp [hr] at h
      | ok b =>
        simp only [hr] at h
        refine ⟨b, rfl, ?_⟩
        split at h
        · next hc => exact .inl ⟨by simpa [capacityExceeded] using hc, by simpa using h.symm⟩
        · next hc =>
          have hc' : u.acc < 2 ^ (p.w - 7) := by simpa [capacityExceeded] using hc
          cases hbit : contBit b <;> simp [consumeByte, hbit, completeOk] at h
          · exact .inr (.inr ⟨hc', rfl, h.symm⟩)
          · exact .inr (.inl ⟨hc', rfl, h.symm⟩)

/-- Who moves: nobody, the outside, or the sequencer; choosing changes only the schedule and the free-value counter (R61, R171). -/
theorem chooseTurn_cases (s : State) :
    ∃ l n, (chooseTurn s).2 = { s with schedule := l, fresh := n } ∧
      (((chooseTurn s).1 = none ∧ s.events = [] ∧ s.uvc.phase = .none) ∨
       ((chooseTurn s).1 = some .external ∧ s.events ≠ []) ∨
       ((chooseTurn s).1 = some .sequencer ∧ s.uvc.phase ≠ .none)) := by
  have he : s.externalReady = true ↔ s.events ≠ [] := by
    unfold State.externalReady; cases s.events <;> simp
  have hs : s.sequencerReady = true ↔ s.uvc.phase ≠ .none := by simp [State.sequencerReady]
  unfold chooseTurn
  cases h1 : s.externalReady <;> cases h2 : s.sequencerReady <;> simp only [h1, h2] at he hs ⊢
  · exact ⟨s.schedule, s.fresh, rfl, .inl ⟨by simp, by simpa using he, by simpa using hs⟩⟩
  · exact ⟨s.schedule, s.fresh, rfl, .inr (.inr ⟨by simp, by simpa using hs⟩)⟩
  · exact ⟨s.schedule, s.fresh, rfl, .inr (.inl ⟨by simp, by simpa using he⟩)⟩
  · cases hl : s.schedule with
    | nil =>
      refine ⟨[], s.fresh + 1, by simp, ?_⟩
      cases freeTurn s.fresh
      · exact .inr (.inl ⟨rfl, by simpa using he⟩)
      · exact .inr (.inr ⟨rfl, by simpa using hs⟩)
    | cons a l =>
      refine ⟨l, s.fresh, rfl, ?_⟩
      cases a
      · exact .inr (.inl ⟨rfl, by simpa using he⟩)
      · exact .inr (.inr ⟨rfl, by simpa using hs⟩)

end Sys2Proof.Machine
end

