-- ==== Sys2Proof/Laws/PerInstr.lean ====
section
/-! SUPPORT. What holds of every command as syntax, one lemma per constructor. -/

namespace Sys2Proof.Laws

/-- The word of a command has the fields R70 and R74 give it: Z1 and Z2 zero, its DIR, its BSEL. -/
def CommandWord.Statement (i : Instr) : Prop :=
  fieldZ1 (encode i) = 0 ∧ fieldZ2 (encode i) = 0 ∧ Dir.ofField (fieldDir (encode i)) = i.dir ∧
    BSel.ofField (fieldBSel (encode i)) = some i.bsel

theorem CommandWord.enc : CommandWord.Statement .enc := by unfold CommandWord.Statement; decide
theorem CommandWord.encu : CommandWord.Statement .encu := by unfold CommandWord.Statement; decide
theorem CommandWord.enc32 : CommandWord.Statement .enc32 := by unfold CommandWord.Statement; decide
theorem CommandWord.dec : CommandWord.Statement .dec := by unfold CommandWord.Statement; decide
theorem CommandWord.decu : CommandWord.Statement .decu := by unfold CommandWord.Statement; decide
theorem CommandWord.dec32 : CommandWord.Statement .dec32 := by unfold CommandWord.Statement; decide

end Sys2Proof.Laws
end

