-- ==== Sys2Proof/Laws/Step.lean ====
section
/-! SUPPORT. Runs of the machine, one step at a time. -/

namespace Sys2Proof.Machine

@[simp] theorem core_run_zero (s : State) : Host.Core.run Sys2Proof.core 0 s = .next s := rfl

/-- A run of one more step is that step and then the run. -/
theorem core_run_succ {s t : State} (n : Nat) (h : step s = .next t) :
    Host.Core.run Sys2Proof.core (n + 1) s = Host.Core.run Sys2Proof.core n t := by
  have : Sys2Proof.core.step s = .next t := h
  simp only [Host.Core.run, this]

/-- A run that goes past its first step has made that step. -/
theorem core_run_succ_next {s t : State} (n : Nat) (h : Host.Core.run Sys2Proof.core (n + 1) s = .next t) :
    ∃ x, step s = .next x ∧ Host.Core.run Sys2Proof.core n x = .next t := by
  cases hs : step s with
  | next x => exact ⟨x, rfl, by rw [← core_run_succ n hs]; exact h⟩
  | fault f =>
    have : Sys2Proof.core.step s = .fault f := hs
    simp [Host.Core.run, this] at h
  | refused r =>
    have : Sys2Proof.core.step s = .refused r := hs
    simp [Host.Core.run, this] at h

/-- With no event pending, a step is the sequencer's (R171). -/
theorem step_of_no_event {s : State} (he : s.events = []) (hp : s.uvc.phase ≠ .none) : step s = sequencerTurn s := by
  simp [step, chooseTurn, State.externalReady, he, State.sequencerReady, hp, takeTurn]

/-- With nothing pending and no command in progress the state holds (R194). -/
theorem step_quiescent {s : State} (he : s.events = []) (hp : s.uvc.phase = .none) : step s = .next s := by
  simp [step, chooseTurn, State.externalReady, he, State.sequencerReady, hp, takeTurn]

/-- The sequencer's turn always comes again (R172). -/
theorem freeTurn_fair (n : Nat) : ∃ m, n ≤ m ∧ freeTurn m = .sequencer ∧ ∀ j, n ≤ j → j < m → freeTurn j = .external := by
  suffices h : ∀ k n, waitAt n = k → ∃ m, n ≤ m ∧ freeTurn m = .sequencer ∧ ∀ j, n ≤ j → j < m → freeTurn j = .external from h _ n rfl
  intro k
  induction k with
  | zero => intro n h; exact ⟨n, le_refl n, by simp [freeTurn, h], fun j h1 h2 => by omega⟩
  | succ k ih =>
    intro n h
    obtain ⟨m, hm, hs, he⟩ := ih (n + 1) (by simp [waitAt, h])
    refine ⟨m, by omega, hs, fun j h1 h2 => ?_⟩
    obtain rfl | hj := Nat.eq_or_lt_of_le h1
    · simp [freeTurn, h]
    · exact he j hj h2

end Sys2Proof.Machine
end

