-- ==== Sys2Proof/Tests/Slice0.lean ====
section
/-! SUPPORT. The model's own tests: what each well-formedness check refuses, the words of spec/ decoded, one step of each instruction and
of the sequencer on small states (expected values from 95_test_vectors.md). -/

namespace Sys2Proof.Tests

open Sys2Proof.Machine

/-- The next state of an outcome. -/
def nextOf (o : Host.Outcome State Fault Refusal) : Option State :=
  match o with
  | .next s => some s
  | .fault _ => none
  | .refused _ => none

/-- The fault of an outcome. -/
def faultOf (o : Host.Outcome State Fault Refusal) : Option Fault :=
  match o with
  | .next _ => none
  | .fault f => some f
  | .refused _ => none

/-- The refusal of an outcome. -/
def refusalOf (o : Host.Outcome State Fault Refusal) : Option Refusal :=
  match o with
  | .next _ => none
  | .fault _ => none
  | .refused r => some r

/-- The UVC a sequencer step gives. -/
def okOf (r : Except Fault Uvc) : Option Uvc :=
  match r with
  | .ok u => some u
  | .error _ => none

/-- The machine after reset with one UVC put in and some events pending. -/
def withUvc (u : Uvc) (e : List Event) : State := { State.reset with uvc := u, events := e }

/-- A UVC with a decode in progress on the given input, budget and byte count. -/
def decoding (l : Memory) (n : Half) (b : Bound) (i a : Nat) : Uvc :=
  { Uvc.reset with state := .busy, phase := .decStep, inBuf := l, inLen := n, bud := b, idx := i, acc := a }

/-- A UVC with an encode of a value in progress, before its ENC_SIZE step. -/
def sizing (v : Nat) (b : Bound) : Uvc := { Uvc.reset with state := .busy, phase := .encSize, valueIn := v, bud := b }

/-- A UVC with an encode of a value in progress, at its ENC_EMIT step. -/
def emitting (v n i : Nat) : Uvc :=
  { Uvc.reset with state := .busy, phase := .encEmit, valueIn := v, bud := .unb, nb := n, idx := i }

/-! ## What each well-formedness check refuses (00_scope.md R2, 42_control.md R164, R167) -/

theorem test_instr_wf : ([.enc, .encu, .enc32, .dec, .decu, .dec32] : List Instr).all Instr.wf = true := by decide
theorem test_width_below_35_refused : Params.wf { w := 34, ibufDepth := 16 } = false := by decide
theorem test_empty_input_buffer_refused : Params.wf { w := 64, ibufDepth := 0 } = false := by decide
theorem test_input_buffer_too_deep_refused : Params.wf { w := 64, ibufDepth := 65536 } = false := by decide
theorem test_params_boundaries_accepted : (Params.wf { w := 35, ibufDepth := 1 } && Params.wf { w := 10 ^ 6, ibufDepth := 65535 }) = true := by
  decide
theorem test_value_in_too_wide_refused : HostWrite.wf Params.reference (.valueIn (2 ^ 64)) = false := by decide
theorem test_value_out_too_wide_refused : HostWrite.wf Params.reference (.valueOut (2 ^ 64)) = false := by decide
theorem test_write_past_in_refused : HostWrite.wf Params.reference (.inByte 16 0) = false := by decide
theorem test_write_past_out_refused : HostWrite.wf Params.reference (.outByte 10 0) = false := by decide
theorem test_read_past_in_refused : HostRead.wf Params.reference (.inByte 16) = false := by decide
theorem test_read_past_out_refused : HostRead.wf Params.reference (.outByte 10) = false := by decide
theorem test_event_with_missing_write_refused : Event.wf Params.reference (.write (.inByte 16 0)) = false := by decide
theorem test_event_with_missing_read_refused : Event.wf Params.reference (.read (.outByte 10)) = false := by decide
theorem test_memory_out_of_order_refused : Memory.wf [(1, 0), (0, 0)] = false := by decide
theorem test_memory_repeated_index_refused : Memory.wf [(1, 0), (1, 1)] = false := by decide
theorem test_machine_refuses_missing_action :
    refusalOf (step (withUvc Uvc.reset [.write (.inByte 16 0)])) = some (.noSuchHostAction (.write (.inByte 16 0))) := by decide

/-! ## The words of spec/ (30_encoding.md R70, R72), bit by bit: 0 0 0 D 0 0 B B -/

theorem test_decode_enc : decodeTableWord 8 0b00000001 = some .enc := by decide
theorem test_decode_encu : decodeTableWord 8 0b00000010 = some .encu := by decide
theorem test_decode_enc32 : decodeTableWord 8 0b00000011 = some .enc32 := by decide
theorem test_decode_dec : decodeTableWord 8 0b00010001 = some .dec := by decide
theorem test_decode_decu : decodeTableWord 8 0b00010010 = some .decu := by decide
theorem test_decode_dec32 : decodeTableWord 8 0b00010011 = some .dec32 := by decide
theorem test_decode_z1 : decode 0b00100001 = .error .z1NotZero := by decide
theorem test_decode_z2 : decode 0b00000101 = .error .z2NotZero := by decide
theorem test_decode_no_bound : decode 0b00010000 = .error .noBoundSelect := by decide

/-! ## One issue of each command (42_control.md R160; 95_test_vectors.md sections 2 to 4) -/

theorem test_enc_takes_max : (nextOf (execEnc (withUvc { Uvc.reset with maxReg := { limit := 3, unb := false } } []))).map (·.uvc.bud) =
    some (.fin 3) := by decide
theorem test_enc_unbounded_max : (nextOf (execEnc (withUvc { Uvc.reset with maxReg := { limit := 3, unb := true } } []))).map (·.uvc.bud) =
    some .unb := by decide
theorem test_encu_ignores_max : (nextOf (execEncu State.reset)).map (·.uvc.bud) = some .unb := by decide
theorem test_encu_ignores_in_len : (nextOf (execEncu (withUvc { Uvc.reset with inLen := 17 } []))).map (·.uvc.phase) =
    some .encSize := by decide
theorem test_enc32_bound : (nextOf (execEnc32 State.reset)).map (·.uvc.bud) = some (.fin 5) := by decide
theorem test_dec_starts_decoder : (nextOf (execDec State.reset)).map (fun t => (t.uvc.phase, t.uvc.bud)) =
    some (.decStep, .fin 0) := by decide
theorem test_decu_contract : (nextOf (execDecu (withUvc { Uvc.reset with inLen := 17 } []))).map (fun t => (t.uvc.state, t.uvc.cause)) =
    some (.err, .contract) := by decide
theorem test_dec32_full_input : (nextOf (execDec32 (withUvc { Uvc.reset with inLen := 16 } []))).map (fun t => (t.uvc.state, t.uvc.bud)) =
    some (.busy, .fin 5) := by decide
theorem test_illegal_word : (nextOf (writeCommand 0x10 State.reset)).map (fun t => (t.uvc.state, t.uvc.cause)) =
    some (.err, .illegalCmd) := by decide
theorem test_busy_drops_command : (nextOf (writeCommand 0x02 (withUvc (sizing 0x80 (.fin 5)) []))).map (·.uvc) =
    some (sizing 0x80 (.fin 5)) := by decide
theorem test_first_step_issues : (nextOf (step (State.reset.withFetchWord 8 0x13))).map (·.uvc.phase) = some .decStep := by decide

/-! ## One sequencer step (the traces of 95_test_vectors.md sections 2.4 and 3.5; EV31, DV13 to DV15, DV23, CV13, CV14) -/

theorem test_size_counts : (okOf (seqStep Params.reference (sizing 0x4000 .unb))).map (fun u => (u.nb, u.phase)) =
    some (3, .encEmit) := by decide
theorem test_size_bound : (okOf (seqStep Params.reference (sizing 0x4000 (.fin 2)))).map (·.cause) = some .encBound := by decide
theorem test_emit_first : (okOf (seqStep Params.reference (emitting 0x4000 3 0))).map (fun u => (u.outBuf, u.idx, u.state)) =
    some ([(0, 0x81)], 1, .busy) := by decide
theorem test_emit_last : (okOf (seqStep Params.reference (emitting 0x4000 3 2))).map (fun u => (u.outBuf, u.outLen, u.state)) =
    some ([(2, 0x00)], 3, .ok) := by decide
theorem test_dec_continues : (okOf (seqStep Params.reference (decoding [(0, 0x81)] 5 (.fin 3) 0 0))).map (fun u => (u.acc, u.idx, u.bud)) =
    some (1, 1, .fin 2) := by decide
theorem test_dec_ends : (okOf (seqStep Params.reference (decoding [(2, 0x00)] 5 (.fin 1) 2 0x80))).map
    (fun u => (u.valueOut, u.consumed, u.bud, u.state)) = some (0x4000, 3, .fin 1, .ok) := by decide
theorem test_dec_bound_before_trunc : (okOf (seqStep Params.reference (decoding [] 5 (.fin 0) 5 0))).map (·.cause) =
    some .decBound := by decide
theorem test_dec_trunc : (okOf (seqStep Params.reference (decoding [(0, 0xFF)] 1 .unb 1 0x7F))).map (·.cause) = some .decTrunc := by decide
theorem test_dec_capacity : (okOf (seqStep Params.reference (decoding [(9, 0x00)] 10 .unb 9 (2 ^ 57)))).map (·.cause) =
    some .decCapacity := by decide
theorem test_dec_largest_value : (okOf (seqStep Params.reference (decoding [(9, 0x7F)] 10 .unb 9 (2 ^ 57 - 1)))).map (·.valueOut) =
    some 0xFFFFFFFFFFFFFFFF := by decide
theorem test_dec_unwritten_faults : faultOf (step (withUvc (decoding [(0, 0x81)] 2 .unb 1 1) [])) =
    some (.unwrittenByte .input 1) := by decide
theorem test_encoding_of_s6 : encBytes 0xFFFFFFFF = [0x8F, 0xFF, 0xFF, 0xFF, 0x7F] := by decide

/-! ## Host access (R164 to R166; CV7 to CV9, CV12) -/

theorem test_max_drops_reserved_bits : maxWord (maxOfWord 0xFFFFFFFF) = 0x8000FFFF := by decide
theorem test_read_status_busy : (nextOf (hostRead .status (withUvc (sizing 0 .unb) []))).map (·.readBack) = some [(.status, 1)] := by decide
theorem test_read_unwritten_out_faults : faultOf (hostRead (.outByte 0) State.reset) = some (.unwrittenByte .output 0) := by decide
theorem test_write_read_only : (nextOf (hostWrite (.outByte 0 0x55) State.reset)).map (·.uvc.outBuf) = some [] := by decide

/-! ## The host notation (R81) -/

theorem test_pseudo_encode : encodeMax 0x80 (maxFin 2) =
    [.write (.valueIn 0x80), .write (.max 0x00000002), .write (.cmd 0x01), .poll] := by decide
theorem test_pseudo_decode : decodeMax maxUnb [0x81, 0x00] =
    [.write (.inByte 0 0x81), .write (.inByte 1 0x00), .write (.inLen 2), .write (.max 0x80000000), .write (.cmd 0x11), .poll] := by decide

end Sys2Proof.Tests
end

