-- ==== Sys2Proof/Tests/Witness.lean ====
section
/-! SUPPORT. For each statement with hypotheses, a concrete state and operands that meet all of them together, at the boundary values of
its clauses. -/

namespace Sys2Proof.Tests

open Sys2Proof.Machine

/-- What a successful decode found, if it succeeded. -/
def okDec (r : Except (Cause × Nat) (Nat × Nat)) : Option (Nat × Nat) :=
  match r with
  | .ok x => some x
  | .error _ => none

/-- What a failing decode found, if it failed. -/
def errDec (r : Except (Cause × Nat) (Nat × Nat)) : Option (Cause × Nat) :=
  match r with
  | .ok _ => none
  | .error e => some e

/-! ## Encoding and issue -/

theorem witness_CommandWordTable : decode 0x13 = .ok .dec32 := by decide
theorem witness_DecodeInvertsEncode : decode 0x01 = .ok .enc := by decide
theorem witness_LegalWordFieldLaw : decode 0x00 = .error .noBoundSelect ∧ State.reset.uvc.state ≠ .busy := by decide

/-- A decode at the boundary of the input-length contract, an encode past it, and MAX = 0 for the last clause. -/
theorem witness_BoundOperandReachesBudget :
    (withUvc { Uvc.reset with inLen := 16 } []).uvc.state ≠ .busy ∧
    (withUvc { Uvc.reset with inLen := 16 } []).uvc.inLen.toNat = Params.reference.ibufDepth ∧
    boundOf .maxReg Uvc.reset.maxReg = .fin 0 := by decide

/-- A command in progress; an illegal word, a decode past the contract, a decode at its boundary, an encode past it. -/
theorem witness_IssueWritesListedRegisters : (withUvc (sizing 0 .unb) []).uvc.state = .busy ∧ (withUvc { Uvc.reset with inLen := 17 } []).uvc.state ≠ .busy ∧
    (0x10 : Byte) ∉ ([0x01, 0x02, 0x03, 0x11, 0x12, 0x13] : List Byte) ∧ (0x11 : Byte).getLsbD 4 = true ∧ (0x01 : Byte).getLsbD 4 = false ∧
    Params.reference.ibufDepth < (17 : Half).toNat ∧ ¬ Params.reference.ibufDepth < (16 : Half).toNat := by decide
theorem witness_EncodeCommandsIssue : State.reset.uvc.state ≠ .busy ∧
    (withUvc { Uvc.reset with state := .err, cause := .decTrunc } []).uvc.state ≠ .busy := by decide
theorem witness_DecodeCommandsIssue : (withUvc { Uvc.reset with state := .ok, inLen := 16 } []).uvc.state ≠ .busy ∧
    (16 : Half).toNat ≤ Params.reference.ibufDepth := by decide
theorem witness_InputLengthContract : (withUvc { Uvc.reset with inLen := 17 } []).uvc.state ≠ .busy ∧
    Params.reference.ibufDepth < (17 : Half).toNat := by decide
theorem witness_IllegalWordEndsAtIssue : (0xFF : Byte) ∉ ([0x01, 0x02, 0x03, 0x11, 0x12, 0x13] : List Byte) ∧
    State.reset.uvc.state ≠ .busy := by decide

/-! ## Host access and reset -/

theorem witness_WritesWhileBusyAreDropped : (withUvc (sizing 0x80 .unb) []).uvc.state = .busy := by decide
theorem witness_HostWriteEffects : State.reset.uvc.state ≠ .busy ∧ decode 0x12 = .ok .decu ∧ decode 0x14 = .error .z2NotZero := by decide

/-- A written byte of each buffer, an unwritten byte of each. -/
theorem witness_HostReadReturnsCurrentValue : Memory.read [(0, 0x81)] 0 = some 0x81 ∧ Memory.read [(0, 0x81)] 1 = none := by decide
theorem witness_PollRepeatsWhileBusy : (withUvc (sizing 0 .unb) []).uvc.state = .busy ∧ State.reset.uvc.state ≠ .busy := by decide

/-- A reset that aborts a command in progress, and one with nothing in progress. -/
theorem witness_ResetEventClearsTheUvc :
    (chooseTurn { withUvc (emitting 0x4000 3 2) [.reset] with schedule := [.external] }).1 = some .external ∧
    (chooseTurn (withUvc Uvc.reset [.reset])).1 = some .external := by decide
theorem witness_CommandsRightAfterReset : Params.wf Params.reference = true ∧ Params.wf { w := 35, ibufDepth := 1 } = true := by decide

/-! ## The step -/

/-- With no command in progress; with one in progress and the turn given by the schedule; with the schedule exhausted. -/
theorem witness_StepRunsDecodedCommand : decode 0x02 = .ok .encu ∧ Instr.wf .encu = true ∧
    (withUvc Uvc.reset [.write (.cmd 0x02)]).uvc.phase = .none ∧
    (withUvc (sizing 0 .unb) [.write (.cmd 0x02)]).uvc.phase ≠ .none ∧
    ({ withUvc (sizing 0 .unb) [.write (.cmd 0x02)] with schedule := [.external] } : State).schedule = .external :: [] ∧
    (withUvc (sizing 0 .unb) [.write (.cmd 0x02)]).schedule = [] := by decide
theorem witness_PhaseSelectsSequencerStep : (withUvc Uvc.reset []).uvc.phase = .none ∧ (withUvc (sizing 0 .unb) []).uvc.phase = .encSize ∧
    (withUvc (emitting 0 1 0) []).uvc.phase = .encEmit ∧ (withUvc (decoding [] 1 .unb 0 0) []).uvc.phase = .decStep ∧
    (withUvc (sizing 0 .unb) []).events = [] := by decide

/-! ## Sequencer steps -/

/-- The bound one byte too small, exactly large enough, and absent. -/
theorem witness_EncSizeCountsThenChecks : (sizing 0x80 (.fin 1)).phase = .encSize ∧ (1 : Half).toNat < max 1 ((bitlen 0x80 + 6) / 7) ∧
    max 1 ((bitlen 0x80 + 6) / 7) ≤ (2 : Half).toNat ∧ (sizing 0x80 .unb).bud = .unb := by decide

/-- A byte that is not the last, the last one of the longest encoding, and the last one of a count that does not fit OUT_LEN. -/
theorem witness_EncEmitWritesOneByte : (Params.wf { w := 10 ^ 6, ibufDepth := 16 } = true ∧ (emitting 0 65536 65535).idx = 65535 ∧
      (65535 < 65536 ∧ 65536 ≤ Params.obufDepth { w := 10 ^ 6, ibufDepth := 16 } ∧ ¬ 65536 < 2 ^ 16)) ∧ Params.wf Params.reference = true ∧
    ((emitting 0x4000 3 0).phase = .encEmit ∧ (emitting 0x4000 3 0).idx = 0 ∧ (0 < 3 ∧ 3 ≤ Params.reference.obufDepth)) ∧
    ((emitting (2 ^ 64 - 1) 10 9).idx = 9 ∧ (9 < 10 ∧ 10 ≤ Params.reference.obufDepth)) := by decide

/-- The spent budget; the exhausted input; a byte with the accumulator at and below the capacity, terminating and continuing. -/
theorem witness_DecStepConsumesOneByte :
    (decoding [] 0 (.fin 0) 0 0).phase = .decStep ∧
    (decoding [] 0 (.fin 1) 0 0).bud ≠ .fin 0 ∧ (decoding [] 0 (.fin 1) 0 0).idx = (decoding [] 0 (.fin 1) 0 0).inLen.toNat ∧
    (decoding [(15, 0x80)] 16 (.fin 1) 15 (2 ^ 57)).idx < 16 ∧ 16 ≤ Params.reference.ibufDepth ∧
    Memory.read [(15, (0x80 : Byte))] 15 = some 0x80 ∧ Memory.read [(15, (0x7F : Byte))] 15 = some 0x7F ∧
    2 ^ (Params.reference.w - 7) ≤ 2 ^ 57 ∧ 2 ^ 57 - 1 < 2 ^ (Params.reference.w - 7) ∧
    (0x7F : Byte).toNat < 128 ∧ 128 ≤ (0x80 : Byte).toNat := by decide
theorem witness_UnwrittenByteFaults : (decoding [] 16 .unb 15 0).phase = .decStep ∧ (decoding [] 16 .unb 15 0).bud ≠ .fin 0 ∧
    15 < (16 : Half).toNat ∧ (16 : Half).toNat ≤ Params.reference.ibufDepth ∧ Memory.read [] 15 = none := by decide

/-- A sequencer step that raises, and the two issues that raise. -/
theorem witness_FailureWritesSixRegisters :
    (okOf (seqStep Params.reference (decoding [] 0 .unb 0 0))).map (·.state) = some .err ∧ (decoding [] 0 .unb 0 0).state = .busy ∧
    (nextOf (hostWrite (.cmd 0x00) State.reset)).map (·.uvc.state) = some .err ∧
    (nextOf (hostWrite (.cmd 0x12) (withUvc { Uvc.reset with inLen := 17 } []))).map (·.uvc.state) = some .err := by decide

/-! ## The wire format -/

theorem witness_EncBytesDenoteTheValue : 0 < nbytes 0 ∧ 1 < nbytes 0x80 := by decide
theorem witness_EncodingIsMinimal : wellFormedUintvar [0x80, 0x00] = true ∧ 1 ≤ 1 ∧ (127 < 2 ^ (7 * 1) ∧ ¬ 128 < 2 ^ (7 * 1)) := by decide
theorem witness_ReaderFindsTheLength : wellFormedUintvar [0x81, 0x00] = true ∧ (∀ b ∈ ([0xFF] : List Byte), contBit b = true) ∧
    uintvarLength [0x81, 0x00, 0xAA] = some 2 := by decide
theorem witness_CapacityCheckIsExact : Params.wf { w := 35, ibufDepth := 16 } = true := by decide
theorem witness_BoundEquivalenceAndRoundTrip : Params.wf Params.reference = true ∧ 2 ^ 64 - 1 < 2 ^ Params.reference.w := by decide
theorem witness_DecodeFnAcceptsExactlyUintvars : Params.wf { w := 10 ^ 6, ibufDepth := 65535 } = true := by decide

/-- Budgets one above the leading bytes, and none. -/
theorem witness_OverLongInputIsAccepted : Params.wf Params.reference = true ∧ contBit 0x7F = false ∧ 2 < (3 : Half).toNat := by decide
theorem witness_FiveByteDecodeOutcomes : Params.wf { w := 35, ibufDepth := 16 } = true := by decide
theorem witness_WideWidthNeverMeetsCapacity : Params.wf { w := 35, ibufDepth := 5 } = true ∧ 7 * 5 ≤ 35 ∧
    ([0xFF, 0xFF, 0xFF, 0xFF, 0x7F] : List Byte).length ≤ 5 := by decide

/-! ## Whole commands -/

/-- A bound that is exactly enough, one too small, and UNB. -/
theorem witness_EncRunsToItsResult :
    State.reset.params.wf = true ∧ (0x80 : Nat) < 2 ^ State.reset.params.w ∧
    (withUvc { Uvc.reset with valueIn := 0x80, maxReg := { limit := 2, unb := false } } []).uvc.state ≠ .busy ∧
    nbytes 0x80 ≤ (2 : Half).toNat ∧ (1 : Half).toNat < nbytes 0x80 := by decide
theorem witness_EncuAlwaysSucceeds : State.reset.params.wf = true ∧ 2 ^ 64 - 1 < 2 ^ State.reset.params.w ∧
    (withUvc { Uvc.reset with valueIn := 2 ^ 64 - 1 } []).uvc.state ≠ .busy := by decide

/-- The largest value accepted and the smallest rejected. -/
theorem witness_Enc32AcceptsBelowTwoToThe35 : State.reset.params.wf = true ∧ 2 ^ 35 - 1 < 2 ^ 35 ∧ 2 ^ 35 < 2 ^ State.reset.params.w ∧
    (withUvc { Uvc.reset with valueIn := 2 ^ 35 } []).uvc.state ≠ .busy := by decide

/-- Input with its second byte unwritten, which DEC with MAXFIN(1) does not read (CV14), in a decode that ends and in one that fails. -/
theorem witness_DecRunsToItsResult :
    okDec (decodeRun Params.reference (.fin 1) [0x05, 0xAA]) = some (5, 1) ∧ Memory.read [(0, (0x05 : Byte))] 0 = some 0x05 ∧
    errDec (decodeRun Params.reference (.fin 1) [0x81, 0x00]) = some (.decBound, 1) ∧
    (withUvc { Uvc.reset with inLen := 2, maxReg := { limit := 1, unb := false } } []).uvc.state ≠ .busy ∧
    (2 : Half).toNat ≤ Params.reference.ibufDepth ∧ ([0x81, 0x00] : List Byte).length = (2 : Half).toNat ∧
    (∀ i, i < bytesReadOnFailure .decBound 1 → Memory.read [(0, (0x81 : Byte))] i = ([0x81, 0x00] : List Byte)[i]?) := by decide
theorem witness_DecuRunsToItsResult :
    okDec (decodeRun Params.reference .unb [0x80, 0x00]) = some (0, 2) ∧
    errDec (decodeRun Params.reference .unb [0xFF]) = some (.decTrunc, 1) ∧
    (∀ i, i < 2 → Memory.read [(0, (0x80 : Byte)), (1, 0x00)] i = ([0x80, 0x00] : List Byte)[i]?) ∧
    (∀ i, i < bytesReadOnFailure .decTrunc 1 → Memory.read [(0, (0xFF : Byte))] i = ([0xFF] : List Byte)[i]?) ∧
    errDec (decodeRun { w := 35, ibufDepth := 16 } .unb [0xFF, 0xFF, 0xFF, 0xFF, 0xFF, 0x00, 0x00]) = some (.decCapacity, 5) ∧
    bytesReadOnFailure .decCapacity 5 = 6 := by decide
theorem witness_Dec32RunsToItsResult : State.reset.params.wf = true ∧
    okDec (decodeRun Params.reference (.fin 5) [0xFF, 0xFF, 0xFF, 0xFF, 0x7F]) = some (0x7FFFFFFFF, 5) ∧
    errDec (decodeRun Params.reference (.fin 5) [0xFF, 0xFF, 0xFF, 0xFF, 0xFF]) = some (.decBound, 5) ∧
    bytesReadOnFailure .decBound 5 = 5 := by decide

/-- A command that has ended in ERR after its step, and an illegal word. -/
theorem witness_CausesEachCommandEndsWith :
    ((nextOf (exec .decu State.reset)).bind fun t => okOf (seqRun State.reset.params 1 t.uvc)).map (fun u => (u.state, u.cause)) =
      some (.err, .decTrunc) ∧
    State.reset.params.wf = true ∧ State.reset.uvc.valueIn < 2 ^ State.reset.params.w ∧ State.reset.uvc.state ≠ .busy ∧
    [Instr.enc, .encu, .enc32, .dec, .decu, .dec32].all (fun i => encode i ≠ 0x04) = true := by decide
theorem witness_ZeroBoundFails : State.reset.uvc.state ≠ .busy ∧ State.reset.uvc.maxReg = { limit := 0, unb := false } ∧
    State.reset.uvc.inLen.toNat ≤ State.reset.params.ibufDepth := by decide

/-! ## Invariants and whole-machine rules -/

theorem reset_inv : State.reset.Inv := by
  refine ⟨by decide, ?_⟩
  constructor <;> simp [State.reset, State.resetWith, Uvc.reset, Memory.wf]

/-- A decode of an empty input in progress, its first step to come: it meets the invariant. -/
theorem decoding_inv : (withUvc (decoding [] 0 .unb 0 0) []).Inv := by
  refine ⟨by decide, ?_⟩
  constructor <;> simp [withUvc, decoding, Uvc.reset, Memory.wf]
  exact ⟨.unbounded, trivial⟩

/-- The same decode with a host read of STATUS pending and turns for the sequencer. -/
def contested : State := { withUvc (decoding [] 0 .unb 0 0) [.read .status] with schedule := [.external, .sequencer] }

theorem contested_inv : contested.Inv := decoding_inv

theorem witness_ResetStateMeetsInvariant : Params.wf { w := 35, ibufDepth := 65535 } = true := by decide
theorem witness_StepKeepsTheInvariant : contested.Inv ∧ (nextOf (step contested)).isSome = true := ⟨contested_inv, by decide⟩
theorem witness_OperandsFixedWhileBusy : (okOf (seqStep Params.reference (emitting 0x80 2 0))).isSome = true ∧
    contested.uvc.state = .busy ∧ contested.events = .read .status :: [] ∧ (nextOf (externalTurn contested)).isSome = true := by decide

/-- An ENC_SIZE step, an ENC_EMIT step, a step that faults for want of a byte, and a DEC_STEP step. -/
theorem witness_DirectionsDoNotInterfere : (sizing 0 .unb).phase = .encSize ∧ (emitting 0x80 2 0).phase = .encEmit ∧
    (decoding [] 1 .unb 0 0).phase = .decStep ∧ (okOf (seqStep Params.reference (emitting 0x80 2 0))).isSome = true ∧
    (okOf (seqStep Params.reference (emitting 0x80 11 10))).isSome = false ∧
    (okOf (seqStep Params.reference (decoding [] 0 .unb 0 0))).isSome = true ∧
    (okOf (seqStep Params.reference (decoding [] 1 .unb 0 0))).isSome = false := by decide

/-- A host read of an unwritten byte, and a host action that does not exist, from a state that meets the invariant. -/
theorem witness_OnlyUnwrittenBytesOrMissingActionsStop : (withUvc Uvc.reset [.read (.outByte 9)]).Inv ∧
    faultOf (step (withUvc Uvc.reset [.read (.outByte 9)])) = some (.unwrittenByte .output 9) ∧
    refusalOf (step (withUvc Uvc.reset [.read (.outByte 10)])) = some (.noSuchHostAction (.read (.outByte 10))) :=
  ⟨reset_inv, by decide, by decide⟩
theorem witness_WrittenInputNeverFaults : (decoding [] 0 .unb 0 0).Inv Params.reference ∧ (decoding [] 0 .unb 0 0).inputWritten ∧
    contested.Inv ∧ contested.uvc.inputWritten ∧ contested.events = .read .status :: [] ∧
    (Event.read .status).wf contested.params = true ∧ (Event.read .status).readsWritten contested.uvc = true :=
  ⟨decoding_inv.2, fun i h => by simp [decoding] at h, contested_inv, fun i h => by simp [contested, withUvc, decoding] at h, rfl,
    by decide, by decide⟩
theorem witness_ResultDoesNotDependOnSchedule : contested.Inv ∧ contested.uvc.state = .busy ∧
    CompletesAfter contested.params 1 contested.uvc (raiseBadArgument .decTrunc contested.uvc) ∧ (∀ e ∈ contested.events, e ≠ .reset) ∧
    (nextOf (Host.Core.run Sys2Proof.core 1 contested)).map (·.uvc) = some contested.uvc ∧
    (nextOf (Host.Core.run Sys2Proof.core 2 contested)).map (·.uvc) = some (raiseBadArgument .decTrunc contested.uvc) := by
  refine ⟨contested_inv, by decide, ⟨rfl, by simp, ?_⟩, by decide, by decide, by decide⟩
  intro k hk
  obtain rfl : k = 0 := by omega
  exact ⟨_, rfl, by decide⟩
theorem witness_CommandCompletesUnderFairSchedule : contested.Inv ∧ contested.uvc.state = .busy ∧ contested.uvc.inputWritten ∧
    (∀ e ∈ contested.events, e.harmless contested.params = true) ∧
    stepsLeft contested.params contested.uvc ≤ contested.schedule.count .sequencer :=
  ⟨contested_inv, by decide, fun i h => by simp [contested, withUvc, decoding] at h, by decide, by decide⟩
theorem witness_ResultsStayUntilIssueOrReset : (withUvc Uvc.reset [.write (.valueIn 5)]).Inv ∧
    (withUvc Uvc.reset [.write (.valueIn 5)]).uvc.state ≠ .busy ∧ (nextOf (step (withUvc Uvc.reset [.write (.valueIn 5)]))).isSome = true :=
  ⟨reset_inv, by decide, by decide⟩

/-- A change at an issue, and a change at a completion. -/
theorem witness_StateChangesOnlyAtIssueCompletionReset : (withUvc Uvc.reset [.write (.cmd 0x02)]).Inv ∧
    (nextOf (step (withUvc Uvc.reset [.write (.cmd 0x02)]))).map (·.uvc.state) = some .busy ∧
    (withUvc (decoding [] 0 .unb 0 0) []).Inv ∧ (nextOf (step (withUvc (decoding [] 0 .unb 0 0) []))).map (·.uvc.state) = some .err :=
  ⟨reset_inv, by decide, decoding_inv, by decide⟩

/-- An encode seen while BUSY after two of its steps. -/
theorem witness_ViewWhileBusy :
    ((nextOf (exec .encu (withUvc { Uvc.reset with valueIn := 0x4000 } []))).bind fun t => okOf (seqRun Params.reference 2 t.uvc)).map
      (fun u => (u.state, u.idx, u.outBuf)) = some (.busy, 1, [(0, 0x81)]) := by decide

/-- With no command in progress; with one in progress and the turn given; with the schedule exhausted; an action that does not exist. -/
theorem witness_StepRunsPendingEvent : (Event.read (.inByte 15)).wf State.reset.params = true ∧
    (Event.read (.inByte 16)).wf State.reset.params = false ∧ (withUvc Uvc.reset [.read (.inByte 16)]).uvc.phase = .none ∧
    contested.uvc.phase ≠ .none ∧ contested.schedule = .external :: [.sequencer] ∧ (withUvc contested.uvc [.poll]).schedule = [] := by decide

/-- A poll that never ends by itself, with no schedule: only the weak fairness lets the command go on. -/
theorem witness_SequencerIsWeaklyFair : (withUvc (decoding [] 0 .unb 0 0) [.poll]).Inv ∧
    (withUvc (decoding [] 0 .unb 0 0) [.poll]).uvc.state = .busy ∧ (withUvc (decoding [] 0 .unb 0 0) [.poll]).uvc.phase ≠ .none ∧
    (withUvc (decoding [] 0 .unb 0 0) [.poll]).uvc.inputWritten ∧
    (∀ e ∈ (withUvc (decoding [] 0 .unb 0 0) [.poll]).events, e.harmless Params.reference = true) :=
  ⟨decoding_inv, by decide, by decide, fun i h => by simp [withUvc, decoding] at h, by decide⟩

/-- A decode of one byte in progress, its only step to come: it meets the invariant. -/
theorem lastByte_inv : (withUvc (decoding [(0, 0x05)] 1 .unb 0 0) []).Inv := by
  refine ⟨by decide, ?_⟩
  constructor <;> simp [withUvc, decoding, Uvc.reset, Memory.wf, Memory.below, State.reset, State.resetWith, Params.reference]
  exact ⟨.unbounded, trivial⟩

/-- A decode of one byte that has ended with OK, and a host write of VALUE_IN pending. -/
def ended : State :=
  withUvc { decoding [(0, 0x05)] 1 .unb 1 5 with state := .ok, phase := .none, valueOut := 5, consumed := 1 } [.write (.valueIn 7)]

theorem ended_inv : ended.Inv := by
  refine ⟨by decide, ?_⟩
  constructor <;> simp [ended, withUvc, decoding, Uvc.reset, Memory.wf, Memory.below, State.reset, State.resetWith, Params.reference]

theorem ended_r39 : ended.uvc.R39 ended.params := by
  constructor <;> simp [ended, withUvc, decoding, Uvc.reset]

/-- The same end, with a host write of IN_LEN below CONSUMED pending, which breaks R39's last clause, or equal to it, which does not. -/
theorem rewritten_witness : ({ ended with events := [.write (.inLen 0)] } : State).Inv ∧ (0 : Half).toNat < ended.uvc.consumed.toNat ∧
    (nextOf (step { ended with events := [.write (.inLen 0)] })).map (fun t => (t.uvc.state, t.uvc.consumed, t.uvc.inLen)) =
      some (.ok, 1, 0) ∧
    (nextOf (step { ended with events := [.write (.inLen 1)] })).map (fun t => (t.uvc.state, t.uvc.consumed, t.uvc.inLen)) =
      some (.ok, 1, 1) := ⟨ended_inv, by decide, by decide, by decide⟩

/-- A decode that ends with OK; and a step after that end that is no write of IN_LEN, at CONSUMED = IN_LEN. -/
theorem witness_ConsumedWithinInLenUntilRewritten : (withUvc (decoding [(0, 0x05)] 1 .unb 0 0) []).Inv ∧
    (nextOf (step (withUvc (decoding [(0, 0x05)] 1 .unb 0 0) []))).map (fun t => (t.uvc.state, t.uvc.consumed, t.uvc.inLen)) =
      some (.ok, 1, 1) ∧
    ended.Inv ∧ ended.uvc.state = .ok ∧ ended.uvc.consumed.toNat ≤ ended.uvc.inLen.toNat ∧
    (nextOf (step ended)).map (·.uvc.state) = some .ok := ⟨lastByte_inv, by decide, ended_inv, by decide, by decide, by decide⟩

/-- A value at the lower end of two bytes with the bound that admits it and the one that does not. -/
theorem witness_MinimalityAndRanges : 1 ≤ 0x80 ∧ nbytes 0x80 = 2 ∧ State.reset.params.wf = true ∧ 0x80 < 2 ^ State.reset.params.w ∧
    (withUvc { Uvc.reset with valueIn := 0x80, maxReg := maxOfWord (maxFin 2) } []).uvc.state ≠ .busy ∧
    nbytes 0x80 ≤ (2 : Half).toNat ∧ ¬ nbytes 0x80 ≤ (1 : Half).toNat ∧
    okDec (decodeRun Params.reference (.fin 2) (encBytes 0x80)) = some (0x80, 2) ∧
    errDec (decodeRun Params.reference (.fin 1) (encBytes 0x80)) = some (.decBound, 1) := by decide

/-- What P6 of 95_test_vectors.md does after each pass, from reset: a decode ends with OK and CONSUMED = 1, and the host then writes
IN_LEN = 0, while STATE is still OK (log 17). -/
theorem test_in_len_rewritten_after_ok :
    (nextOf (Host.Core.run Sys2Proof.core 5 { State.reset with
        events := [.write (.inByte 0 0x00), .write (.inLen 1), .write (.cmd 0x12), .write (.inLen 0)], schedule := [.sequencer] })).map
      (fun t => (t.uvc.state, t.uvc.consumed, t.uvc.inLen)) = some (.ok, 1, 0) := by decide

end Sys2Proof.Tests
end

