-- ==== Sys2Proof/Proofs/WideWidth.lean ====
section
/-! Proof of O36: on an input of n bytes the accumulator meets the capacity check with at most 7 (n - 1) bits, so a register of 7 n bits
never fails it (41_decoder.md R131, R134, R135; log 2). -/

namespace Sys2Proof.Machine

/-- The capacity check passes exactly while there is room for 7 more bits (R134). -/
theorem capacityExceeded_eq_false_iff (p : Params) (acc : Nat) : capacityExceeded p acc = false ↔ acc < 2 ^ (p.w - 7) := by
  simp [capacityExceeded]

/-- Assembling a byte adds at most 7 bits (R131). -/
theorem assemble_lt_two_pow {acc k : Nat} (b : Byte) (h : acc < 2 ^ k) : assemble acc b < 2 ^ (k + 7) := by
  have hb := dataGroup_lt b
  rw [assemble_eq, Nat.pow_add]
  omega

/-- DecodeFn forgets only the count of bytes at which its loop failed (R135, R143). -/
theorem decodeFn_error_iff (p : Params) (b : Bound) (l : List Byte) (c : Cause) :
    decodeFn p b l = .error c ↔ ∃ j, decodeRun p b l = .error (c, j) := by
  unfold decodeFn
  cases decodeRun p b l <;> simp [Prod.ext_iff]

/-- An accumulator of k bits and 7 bits for each byte to come fit in W bits: the loop never meets the capacity check. -/
theorem decodeLoop_ne_decCapacity_of_room {p : Params} {l : List Byte} {acc k : Nat} (i j : Nat) (bud : Bound) (hacc : acc < 2 ^ k)
    (hroom : k + 7 * l.length ≤ p.w) : decodeLoop p acc i bud l ≠ .error (.decCapacity, j) := by
  induction l generalizing acc k i bud with
  | nil => cases hb : budgetSpent bud <;> simp [decodeLoop, hb]
  | cons b rest ih =>
    rw [List.length_cons] at hroom
    have hcap : capacityExceeded p acc = false :=
      (capacityExceeded_eq_false_iff p acc).2 (hacc.trans_le (Nat.pow_le_pow_right two_pos (by omega)))
    have hrest := ih (i + 1) (decBudget bud) (assemble_lt_two_pow b hacc) (by omega)
    cases hb : budgetSpent bud with
    | true => simp [decodeLoop, hb]
    | false =>
      cases hc : contBit b with
      | true => simpa [decodeLoop, hb, hcap, hc] using hrest
      | false => simp [decodeLoop, hb, hcap, hc]

/-- Settles O36: the empty accumulator has 0 bits, and the input fits in the IBUF_DEPTH bytes that W has room for. -/
theorem wideWidthNeverMeetsCapacity : Obligations.WideWidthNeverMeetsCapacity := by
  intro p b l _ hw hl h
  obtain ⟨j, hj⟩ := (decodeFn_error_iff p b l .decCapacity).1 h
  exact decodeLoop_ne_decCapacity_of_room (k := 0) 0 j b (by decide) (by omega) hj

end Sys2Proof.Machine
end

