-- ==== Sys2Proof/Proofs/StepEffect.lean ====
section
/-! Rules: what one step can make of the UVC, said once for every agent, and what the sequencer's steps can answer
(20_memory.md R57, R61; 42_control.md R160 to R166, R171; 70_reset_and_hazards.md R200). -/

namespace Sys2Proof.Machine

/-! ## Host writes -/

@[simp] theorem storeOperand_state (w : HostWrite) (u : Uvc) : (storeOperand w u).state = u.state := by cases w <;> rfl

@[simp] theorem storeOperand_consumed (w : HostWrite) (u : Uvc) : (storeOperand w u).consumed = u.consumed := by cases w <;> rfl

/-- Only a write of IN_LEN changes IN_LEN (R164). -/
theorem storeOperand_inLen {w : HostWrite} (u : Uvc) (h : ∀ n, w ≠ .inLen n) : (storeOperand w u).inLen = u.inLen := by
  cases w with
  | inLen n => exact absurd rfl (h n)
  | _ => rfl

/-- The two ends of the issue of a legal command (R160, R162). -/
theorem issue_cases (p : Params) (d : Dir) (b : BSel) (u : Uvc) :
    (d = .decode ∧ p.ibufDepth < u.inLen.toNat ∧ issue p d b u = raiseBadArgument .contract u) ∨
    ((d = .decode → u.inLen.toNat ≤ p.ibufDepth) ∧ issue p d b u = startCommand d b u) := by
  by_cases h : d = .decode ∧ p.ibufDepth < u.inLen.toNat
  · exact .inl ⟨h.1, h.2, issue_contract b h.1 h.2⟩
  · have hle : d = .decode → u.inLen.toNat ≤ p.ibufDepth := fun hd => not_lt.1 fun hlt => h ⟨hd, hlt⟩
    exact .inr ⟨hle, issue_start b hle⟩

/-- An issue leaves STATE at BUSY or ERR (R160, R162). -/
theorem issue_state (p : Params) (d : Dir) (b : BSel) (u : Uvc) :
    (issue p d b u).state = .busy ∨ (issue p d b u).state = .err := by
  obtain ⟨_, _, h⟩ | ⟨_, h⟩ := issue_cases p d b u <;> simp [h]

theorem issue_state_ne_ok (p : Params) (d : Dir) (b : BSel) (u : Uvc) : (issue p d b u).state ≠ .ok := by
  obtain h | h := issue_state p d b u <;> simp [h]

/-- Every host write is one update behind the gate of R165: the issue of a command, an illegal word, or the store of an operand. -/
theorem hostWrite_cases (w : HostWrite) (s : State) : ∃ f, hostWrite w s = .next (s.hostStore f) ∧
    ((∃ c i, w = .cmd c ∧ decode c = .ok i ∧ f = issue s.params i.dir i.bsel) ∨
     (∃ c e, w = .cmd c ∧ decode c = .error e ∧ f = raiseBadArgument .illegalCmd) ∨
     ((∀ c, w ≠ .cmd c) ∧ f = storeOperand w)) := by
  cases w with
  | cmd c =>
    cases hd : decode c with
    | ok i => exact ⟨_, by simp [hostWrite, writeCommand, hd, exec_eq], .inl ⟨c, i, rfl, hd, rfl⟩⟩
    | error e => exact ⟨_, by simp [hostWrite, writeCommand, hd], .inr (.inl ⟨c, e, rfl, hd, rfl⟩)⟩
  | _ => exact ⟨_, rfl, .inr (.inr ⟨by simp, rfl⟩)⟩

/-- A host read leaves the UVC and the configuration as they were (R58, R166). -/
theorem hostRead_frame {r : HostRead} {s t : State} (h : hostRead r s = .next t) : t.params = s.params ∧ t.uvc = s.uvc := by
  unfold hostRead at h
  cases hr : readValue r s.uvc with
  | ok v =>
    obtain rfl : { s with readBack := (r, v) :: s.readBack } = t := by simpa [hr] using h
    exact ⟨rfl, rfl⟩
  | error f => simp [hr] at h

/-! ## One step -/

/-- What one step can make of the UVC `u` of the configuration `p` where the events `es` are pending. -/
inductive StepEffect (p : Params) (u : Uvc) (es : List Event) : Uvc → Prop
  /-- Nobody has a step (R171, R194). -/
  | quiescent (he : es = []) (hp : u.phase = .none) : StepEffect p u es u
  /-- The sequencer's step (R171). -/
  | sequencer {v : Uvc} (hp : u.phase ≠ .none) (h : seqStep p u = .ok v) : StepEffect p u es v
  /-- A host read or a poll (R58, R166). -/
  | observed {e : Event} {rest : List Event} (he : es = e :: rest) (hr : e = .poll ∨ ∃ r, e = .read r) : StepEffect p u es u
  /-- A host write while BUSY (R165). -/
  | dropped {w : HostWrite} {rest : List Event} (he : es = .write w :: rest) (hb : u.state = .busy) : StepEffect p u es u
  /-- The issue of a command (R160). -/
  | issued {c : Byte} {i : Instr} {rest : List Event} (he : es = .write (.cmd c) :: rest) (hb : u.state ≠ .busy)
      (hd : decode c = .ok i) : StepEffect p u es (issue p i.dir i.bsel u)
  /-- The issue of a word that is no command (R161). -/
  | illegal {c : Byte} {e : DecodeError} {rest : List Event} (he : es = .write (.cmd c) :: rest) (hb : u.state ≠ .busy)
      (hd : decode c = .error e) : StepEffect p u es (raiseBadArgument .illegalCmd u)
  /-- A host write of another target while not BUSY (R164). -/
  | stored {w : HostWrite} {rest : List Event} (he : es = .write w :: rest) (hb : u.state ≠ .busy) (hw : w.wf p = true)
      (hc : ∀ c, w ≠ .cmd c) : StepEffect p u es (storeOperand w u)
  /-- A reset (R200). -/
  | reset {rest : List Event} (n : Nat) (he : es = .reset :: rest) : StepEffect p u es (resetUvc p n)

/-- A host write at the head of the pending events has one of the effects of a step (R160 to R165). -/
theorem hostWrite_effect {w : HostWrite} {s t : State} (rest : List Event) (hw : w.wf s.params = true)
    (h : hostWrite w s = .next t) : t.params = s.params ∧ StepEffect s.params s.uvc (.write w :: rest) t.uvc := by
  obtain ⟨f, hf, hcases⟩ := hostWrite_cases w s
  obtain rfl : s.hostStore f = t := by simpa [hf] using h
  refine ⟨State.hostStore_params f s, ?_⟩
  by_cases hb : s.uvc.state = .busy
  · rw [State.hostStore_busy f hb]
    exact .dropped rfl hb
  · rw [State.hostStore_free f hb]
    obtain ⟨c, i, rfl, hd, rfl⟩ | ⟨c, e, rfl, hd, rfl⟩ | ⟨hc, rfl⟩ := hcases
    · exact .issued rfl hb hd
    · exact .illegal rfl hb hd
    · exact .stored rfl hb hw hc

/-- An existing event has one of the effects of a step; the list it heads does not matter beyond it. -/
theorem runEvent_effect {e : Event} {s t : State} (rest : List Event) (he : e.wf s.params = true) (h : runEvent e s = .next t) :
    t.params = s.params ∧ StepEffect s.params s.uvc (e :: rest) t.uvc := by
  cases e with
  | write w => exact hostWrite_effect rest he h
  | read r =>
    obtain ⟨hp, hu⟩ := hostRead_frame h
    exact ⟨hp, hu ▸ .observed rfl (.inr ⟨r, rfl⟩)⟩
  | poll =>
    obtain ⟨hp, hu⟩ : t.params = s.params ∧ t.uvc = s.uvc := by
      simp only [runEvent] at h
      split at h
      · exact hostRead_frame (s := { s with events := .poll :: s.events }) h
      · exact hostRead_frame h
    exact ⟨hp, hu ▸ .observed rfl (.inl rfl)⟩
  | reset =>
    obtain rfl : resetEvent s = t := by simpa [runEvent] using h
    exact ⟨rfl, .reset s.fresh rfl⟩

/-- The outside's turn, with an event pending, has one of the effects of a step (R167). -/
theorem externalTurn_effect {s t : State} (he : s.events ≠ []) (h : externalTurn s = .next t) :
    t.params = s.params ∧ StepEffect s.params s.uvc s.events t.uvc := by
  unfold externalTurn at h
  split at h
  · next hnil => exact absurd hnil he
  · next e rest hes =>
    rw [hes]
    split at h
    · exact runEvent_effect (s := { s with events := rest }) rest ‹_› h
    · simp at h

/-- The sequencer's turn is its step (R171). -/
theorem sequencerTurn_effect {s t : State} (hp : s.uvc.phase ≠ .none) (h : sequencerTurn s = .next t) :
    t.params = s.params ∧ StepEffect s.params s.uvc s.events t.uvc := by
  unfold sequencerTurn at h
  split at h
  · next u hu =>
    obtain rfl : { s with uvc := u } = t := by simpa using h
    exact ⟨rfl, .sequencer hp hu⟩
  · simp at h

/-- Every step that answers keeps the configuration (R21) and has one of these effects on the UVC. -/
theorem step_effect {s t : State} (h : step s = .next t) : t.params = s.params ∧ StepEffect s.params s.uvc s.events t.uvc := by
  obtain ⟨l, n, hs, hturn⟩ := chooseTurn_cases s
  obtain ⟨ha, he, hp⟩ | ⟨ha, he⟩ | ⟨ha, hp⟩ := hturn <;> rw [step, ← Prod.mk.eta (p := chooseTurn s), hs, ha] at h
  · obtain rfl : { s with schedule := l, fresh := n } = t := by simpa [takeTurn] using h
    exact ⟨rfl, .quiescent he hp⟩
  · exact externalTurn_effect (s := { s with schedule := l, fresh := n }) he h
  · exact sequencerTurn_effect (s := { s with schedule := l, fresh := n }) hp h

/-! ## The sequencer's steps -/

/-- What the ENC_EMIT step can do when it answers (R52, R107). -/
theorem encEmitStep_ok {p : Params} {u v : Uvc} (h : encEmitStep p u = .ok v) :
    (u.idx + 1 ≠ u.nb ∧ v = { u with outBuf := Memory.write u.outBuf u.idx (emitByte u u.idx), idx := u.idx + 1 }) ∨
    (u.idx + 1 = u.nb ∧ v = { u with
      outBuf := Memory.write u.outBuf u.idx (emitByte u u.idx), idx := u.idx + 1, outLen := outLenOf u.nb,
      state := .ok, phase := .none }) := by
  have hidx : u.idx < p.obufDepth := by
    by_contra hout
    simp [encEmitStep, memWrite, hout] at h
  obtain ⟨hn, he⟩ | ⟨hn, he⟩ := encEmitStep_cases hidx <;> rw [he] at h
  · exact .inl ⟨hn, by simpa using h.symm⟩
  · exact .inr ⟨hn, by simpa using h.symm⟩

/-- A sequencer step leaves STATE as it is, fails, or completes; and CONSUMED after a completion is as it was (an encode) or within IN_LEN
(a decode) (R107, R137, R169). -/
theorem seqStep_ends {p : Params} {u v : Uvc} (h : seqStep p u = .ok v) :
    v.state = u.state ∨ v.state = .err ∨
      (v.state = .ok ∧ (v.consumed = u.consumed ∨ v.consumed.toNat ≤ v.inLen.toNat)) := by
  cases hp : u.phase with
  | none =>
    obtain rfl : u = v := by simpa [seqStep_none p hp] using h
    exact .inl rfl
  | encSize =>
    obtain rfl : encSizeStep u = v := by simpa [seqStep_encSize p hp] using h
    obtain ⟨_, he⟩ | ⟨_, he⟩ := encSizeStep_cases u <;> simp [he]
  | encEmit =>
    rw [seqStep_encEmit p hp] at h
    obtain ⟨_, rfl⟩ | ⟨_, rfl⟩ := encEmitStep_ok h <;> simp
  | decStep =>
    rw [seqStep_decStep p hp] at h
    obtain ⟨_, rfl⟩ | ⟨_, _, rfl⟩ | ⟨_, _, b, hb, ⟨_, rfl⟩ | ⟨_, _, rfl⟩ | ⟨_, _, rfl⟩⟩ := decStep_cases h
    · simp
    · simp
    · simp
    · simp
    · obtain ⟨hlt, _, _⟩ := (memRead_ok_iff p u u.idx b).1 hb
      refine .inr (.inr ⟨rfl, .inr ?_⟩)
      exact (BitVec.toNat_ofNat .. ▸ Nat.mod_le ..).trans hlt

end Sys2Proof.Machine
end

