-- ==== Sys2Proof/Proofs/InvariantStep.lean ====
section
/-! Proof of O45 and O46: the state after reset meets the invariant, and every effect of a step keeps it. Each lemma below names only the
clauses of the invariant that its update touches (10_state.md R39; log 17). -/

namespace Sys2Proof.Machine

/-! ## Facts of the datapath -/

/-- Whatever OUT_LEN holds, it is at most the count (R107; log 2). -/
theorem outLenOf_toNat_le (n : Nat) : (outLenOf n).toNat ≤ n := by
  by_cases h : n < 2 ^ 16
  · exact (outLenOf_toNat h).le
  · have := (outLenOf n).isLt
    omega

/-- One more continuation byte takes one off the budget (R133, R137). -/
theorem budgetAfter_succ {b bud : Bound} {n : Nat} (h : budgetAfter b n bud) (hb : bud ≠ .fin 0) :
    budgetAfter b (n + 1) (decBudget bud) := by
  cases bud with
  | unb => cases b <;> exact h
  | fin k =>
    obtain ⟨l, hl, hk⟩ := decBudget_fin (k := k) (by simpa using hb)
    rw [hl]
    cases b with
    | unb => exact h
    | fin m =>
      simp only [budgetAfter] at h ⊢
      omega

/-- Where the capacity check passes, the assembled value fits W bits (R134). -/
theorem assemble_lt_of_capacity {p : Params} (hwf : p.wf = true) {acc : Nat} (b : Byte) (h : acc < 2 ^ (p.w - 7)) :
    assemble acc b < 2 ^ p.w := by
  obtain ⟨hw, _, _⟩ := (Params.wf_iff p).1 hwf
  have hlt := assemble_lt_two_pow b h
  rwa [show p.w - 7 + 7 = p.w by omega] at hlt

/-- No byte has been read yet: the budget is the bound (R160). -/
theorem budgetAfter_zero (b : Bound) : budgetAfter b 0 b := by cases b <;> simp [budgetAfter]

/-- Writing the next element of a list extends the part of it that a buffer holds from index 0 on. -/
theorem Memory.read_write_next {m : Memory} {l : List Byte} {i : Nat} {b : Byte} (h : ∀ j, j < i → Memory.read m j = l[j]?)
    (hb : l[i]? = some b) : ∀ j, j < i + 1 → Memory.read (Memory.write m i b) j = l[j]? := by
  intro j hj
  rw [Memory.read_write]
  split
  · next hji => rw [hji, hb]
  · exact h j (by omega)

/-! ## Reset, the issue and the failures -/

/-- The host-visible registers and PHASE after reset meet the invariant, whatever the hidden registers hold within their widths
(R200, R202). -/
theorem inv_of_reset (p : Params) {a i : Nat} (bud : Bound) (n : Nat) (ha : a < 2 ^ p.w) (hi : i < 2 ^ 16) :
    ({ Uvc.reset with acc := a, bud := bud, idx := i, nb := n } : Uvc).Inv p := by
  constructor
  case idx_le => exact .inl hi
  all_goals simp [Uvc.reset, Memory.wf, ha]

theorem Uvc.reset_inv (p : Params) : Uvc.reset.Inv p := inv_of_reset p (.fin 0) 0 (by positivity) (by decide)

theorem resetUvc_inv (p : Params) (n : Nat) : (resetUvc p n).Inv p :=
  inv_of_reset p (Config.freeBud n) (Config.freeNb n) (Nat.mod_lt _ (by positivity)) (Config.freeIdx n).isLt

section
variable {p : Params} {u : Uvc}

/-- A failure ends the command with the results cleared (R181). -/
theorem Uvc.Inv.after_raise (h : u.Inv p) {c : Cause} (hc : c ≠ .none) : (raiseBadArgument c u).Inv p :=
  { h with
    valueOut_lt := by simp
    busy_iff := by simp
    cause_iff := by simpa using hc
    results_clear := by simp
    one_direction := by simp
    outLen_le := by simp
    consumed_le := by simp
    out_encoding := by simp
    enc_size := by simp
    enc_emit := by simp
    dec_step := by simp }

/-- The start of a command (R160); a decode starts only within the input-length contract (R162). -/
theorem Uvc.Inv.after_start (h : u.Inv p) {d : Dir} (b : BSel) (hd : d = .decode → u.inLen.toNat ≤ p.ibufDepth) :
    (startCommand d b u).Inv p :=
  { h with
    valueOut_lt := by simp
    acc_lt := by simp
    busy_iff := by cases d <;> simp [startPhase]
    cause_iff := by simp
    results_clear := by simp
    one_direction := by simp
    outLen_le := by simp
    idx_le := by simp
    consumed_le := by simp
    out_encoding := by simp
    enc_size := fun _ => ⟨rfl, b, rfl⟩
    enc_emit := by cases d <;> simp [startPhase]
    dec_step := by
      cases d with
      | encode => simp [startPhase]
      | decode => exact fun _ => ⟨by simp, hd rfl, by simp, ⟨b, budgetAfter_zero _⟩, by simp⟩ }

theorem Uvc.Inv.after_issue (h : u.Inv p) (d : Dir) (b : BSel) : (issue p d b u).Inv p := by
  obtain ⟨_, _, he⟩ | ⟨hd, he⟩ := issue_cases p d b u <;> rw [he]
  · exact h.after_raise (by decide)
  · exact h.after_start b hd

/-! ## Host writes -/

/-- With no command in progress the sequencer is at rest (R39). -/
theorem Uvc.Inv.phase_none (h : u.Inv p) (hs : u.state ≠ .busy) : u.phase = .none :=
  not_not.1 fun hp => hs (h.busy_iff.2 hp)

/-- A command in progress has cleared the results (R160). -/
theorem Uvc.Inv.results_clear_of_phase (h : u.Inv p) (hp : u.phase ≠ .none) : u.valueOut = 0 ∧ u.outLen = 0 ∧ u.consumed = 0 :=
  h.results_clear (by simp [h.busy_iff.2 hp])

/-- A command in progress has cleared CAUSE (R160). -/
theorem Uvc.Inv.cause_none_of_phase (h : u.Inv p) (hp : u.phase ≠ .none) : u.cause = .none :=
  h.cause_iff.1 (by simp [h.busy_iff.2 hp])

/-- A host write while not BUSY of a value that fits its target (R164); the clauses of a command in progress do not apply then. -/
theorem Uvc.Inv.after_store (h : u.Inv p) {w : HostWrite} (hw : w.wf p = true) (hs : u.state ≠ .busy) : (storeOperand w u).Inv p := by
  have hp := h.phase_none hs
  cases w with
  | valueIn v => exact { h with valueIn_lt := of_decide_eq_true hw, enc_emit := by simp [storeOperand, hp] }
  | max v => exact { h with enc_size := by simp [storeOperand, hp], dec_step := by simp [storeOperand, hp] }
  | inLen v => exact { h with dec_step := by simp [storeOperand, hp] }
  | inByte i v =>
    exact { h with
      inBuf_wf := Memory.write_wf i v h.inBuf_wf
      inBuf_below := Memory.write_below v h.inBuf_below (of_decide_eq_true hw)
      dec_step := by simp [storeOperand, hp] }
  | cmd _ | status _ | cause _ | valueOut _ | outLen _ | consumed _ | outByte _ _ => exact h

/-! ## The sequencer's steps -/

/-- ENC_SIZE (R106). -/
theorem Uvc.Inv.after_encSize (h : u.Inv p) (hph : u.phase = .encSize) : (encSizeStep u).Inv p := by
  obtain ⟨_, he⟩ | ⟨hfits, he⟩ := encSizeStep_cases u <;> rw [he]
  · exact h.after_raise (by decide)
  · exact { h with
      busy_iff := by simp [h.busy_iff, hph]
      idx_le := by simp
      enc_size := by simp
      enc_emit := fun _ => ⟨rfl, nbytes_pos _, hfits, by simp⟩
      dec_step := by simp }

/-- ENC_EMIT (R107): OUT holds one more byte of the encoding, and all of it on completion. -/
theorem Uvc.Inv.after_encEmit (hwf : p.wf = true) (h : u.Inv p) (hph : u.phase = .encEmit) {v : Uvc} (hv : encEmitStep p u = .ok v) :
    v.Inv p := by
  obtain ⟨hnb, hlt, hfits, hout⟩ := h.enc_emit hph
  obtain ⟨hval, hlen, hcons⟩ := h.results_clear_of_phase (by simp [hph])
  have hcause := h.cause_none_of_phase (by simp [hph])
  have hdepth : u.nb ≤ p.obufDepth := (h.nb_le hwf hph).2
  have hcanon := Memory.write_wf u.idx (emitByte u u.idx) h.outBuf_wf
  have hbelow := Memory.write_below (emitByte u u.idx) h.outBuf_below (hlt.trans_le hdepth)
  have hbyte : (encBytes u.valueIn)[u.idx]? = some (emitByte u u.idx) := by
    rw [encBytes_getElem? (hnb ▸ hlt), emitByte, hnb]
  have hwritten := Memory.read_write_next hout hbyte
  obtain ⟨hn, rfl⟩ | ⟨hn, rfl⟩ := encEmitStep_ok hv
  · exact { h with
      outBuf_wf := hcanon
      outBuf_below := hbelow
      idx_le := .inr (by dsimp only; omega)
      out_encoding := fun hne => absurd hlen hne
      enc_size := by simp [hph]
      enc_emit := fun _ => ⟨hnb, by dsimp only; omega, hfits, hwritten⟩
      dec_step := by simp [hph] }
  · exact { h with
      outBuf_wf := hcanon
      outBuf_below := hbelow
      busy_iff := by simp
      cause_iff := by simp [hcause]
      results_clear := by simp
      one_direction := .inr ⟨hval, hcons⟩
      outLen_le := (outLenOf_toNat_le u.nb).trans hdepth
      idx_le := .inr (by dsimp only; omega)
      out_encoding := fun _ => ⟨u.valueIn, h.valueIn_lt, by rw [hnb], fun j hj =>
        hwritten j (by rw [encBytes_length] at hj; omega)⟩
      enc_size := by simp
      enc_emit := by simp
      dec_step := by simp }

/-- DEC_STEP (R137): the accumulator grows by at most 7 bits for each byte, and stays within W bits by the capacity check (R134). -/
theorem Uvc.Inv.after_decStep (hwf : p.wf = true) (h : u.Inv p) (hph : u.phase = .decStep) {v : Uvc} (hv : decStep p u = .ok v) : v.Inv p := by
  obtain ⟨_, hin, hacc, ⟨b, hbud⟩, hread⟩ := h.dec_step hph
  obtain ⟨_, hlen, _⟩ := h.results_clear_of_phase (by simp [hph])
  have hcause := h.cause_none_of_phase (by simp [hph])
  obtain ⟨_, rfl⟩ | ⟨_, _, rfl⟩ | ⟨hspent, _, x, hx, hend⟩ := decStep_cases hv
  · exact h.after_raise (by decide)
  · exact h.after_raise (by decide)
  · obtain ⟨hidx, _, hbyte⟩ := (memRead_ok_iff p u u.idx x).1 hx
    have h16 := u.inLen.isLt
    obtain ⟨_, rfl⟩ | ⟨hcap, hcont, rfl⟩ | ⟨hcap, _, rfl⟩ := hend
    · exact h.after_raise (by decide)
    · exact { h with
        acc_lt := assemble_lt_of_capacity hwf x hcap
        idx_le := .inl (by dsimp only; omega)
        enc_size := by simp [hph]
        enc_emit := by simp [hph]
        dec_step := fun _ => ⟨hidx, hin, assemble_lt_two_pow x hacc, ⟨b, budgetAfter_succ hbud hspent⟩, fun j hj => by
          obtain hj | rfl := Nat.lt_succ_iff_lt_or_eq.1 hj
          · exact hread j hj
          · exact ⟨x, hbyte, hcont⟩⟩ }
    · exact { h with
        valueOut_lt := assemble_lt_of_capacity hwf x hcap
        acc_lt := assemble_lt_of_capacity hwf x hcap
        busy_iff := by simp
        cause_iff := by simp [hcause]
        results_clear := by simp
        one_direction := .inl hlen
        idx_le := .inl (by dsimp only; omega)
        consumed_le := by
          rw [BitVec.toNat_ofNat, Nat.mod_eq_of_lt (by omega)]
          omega
        enc_size := by simp
        enc_emit := by simp
        dec_step := by simp }

theorem Uvc.Inv.after_seqStep (hwf : p.wf = true) (h : u.Inv p) {v : Uvc} (hv : seqStep p u = .ok v) : v.Inv p := by
  cases hph : u.phase with
  | none =>
    obtain rfl : u = v := by simpa [seqStep_none p hph] using hv
    exact h
  | encSize =>
    obtain rfl : encSizeStep u = v := by simpa [seqStep_encSize p hph] using hv
    exact h.after_encSize hph
  | encEmit => exact h.after_encEmit hwf hph (seqStep_encEmit p hph ▸ hv)
  | decStep => exact h.after_decStep hwf hph (seqStep_decStep p hph ▸ hv)

/-! ## Every step -/

theorem StepEffect.inv {es : List Event} {v : Uvc} (hwf : p.wf = true) (h : u.Inv p) (he : StepEffect p u es v) : v.Inv p := by
  cases he with
  | quiescent _ _ | observed _ _ | dropped _ _ => exact h
  | sequencer _ hv => exact h.after_seqStep hwf hv
  | issued _ _ _ => exact h.after_issue _ _
  | illegal _ _ _ => exact h.after_raise (by decide)
  | stored _ hb hw _ => exact h.after_store hw hb
  | reset n _ => exact resetUvc_inv p n

end

/-- Settles O46: the effect of a step keeps the UVC's invariant, and the configuration stays. -/
theorem stepKeepsTheInvariant : Obligations.StepKeepsTheInvariant := by
  intro s t ⟨hwf, hinv⟩ hstep
  obtain ⟨hp, heffect⟩ := step_effect hstep
  exact ⟨⟨hp ▸ hwf, hp ▸ heffect.inv hwf hinv⟩, hp⟩

/-- Settles O45: reset leaves the hidden registers within their widths too. -/
theorem resetStateMeetsInvariant : Obligations.ResetStateMeetsInvariant :=
  ⟨⟨by decide, Uvc.reset_inv _⟩, fun p hp => ⟨hp, Uvc.reset_inv p⟩⟩

end Sys2Proof.Machine
end

