-- ==== Sys2Proof/Proofs/NonInterference.lean ====
section
/-! Proof of O49: the sequencer's steps of an encode commute with any change of the decoder's registers, and those of a decode with any
change of the encoder's (10_state.md R26, R28, R32; 41_decoder.md R137). -/

namespace Sys2Proof.Machine

/-- The UVC with other contents of what only a decode reads: IN, IN_LEN and ACC. -/
def Uvc.withDecodeSide (m : Memory) (n : Half) (a : Nat) (u : Uvc) : Uvc := { u with inBuf := m, inLen := n, acc := a }

/-- The UVC with other contents of what only an encode reads or writes: OUT and VALUE_IN. -/
def Uvc.withEncodeSide (m : Memory) (x : Nat) (u : Uvc) : Uvc := { u with outBuf := m, valueIn := x }

/-! ## Encode -/

theorem encSizeStep_withDecodeSide (u : Uvc) (m : Memory) (n : Half) (a : Nat) :
    encSizeStep (u.withDecodeSide m n a) = (encSizeStep u).withDecodeSide m n a := by
  unfold encSizeStep
  rw [apply_ite (Uvc.withDecodeSide m n a)]
  rfl

theorem encEmitStep_withDecodeSide (p : Params) (u : Uvc) (m : Memory) (n : Half) (a : Nat) :
    encEmitStep p (u.withDecodeSide m n a) = (encEmitStep p u).map (Uvc.withDecodeSide m n a) := by
  by_cases hidx : u.idx < p.obufDepth
  · have hidx' : (u.withDecodeSide m n a).idx < p.obufDepth := hidx
    unfold encEmitStep
    rw [memWrite_ok _ hidx, memWrite_ok _ hidx', apply_ite (Except.map _)]
    rfl
  · simp [encEmitStep, memWrite, Uvc.withDecodeSide, hidx, Except.map]

/-- An encode step does not depend on the decoder's side and carries it along. -/
theorem seqStep_withDecodeSide (p : Params) {u : Uvc} (hp : u.phase = .encSize ∨ u.phase = .encEmit) (m : Memory) (n : Half) (a : Nat) :
    seqStep p (u.withDecodeSide m n a) = (seqStep p u).map (Uvc.withDecodeSide m n a) := by
  obtain hp | hp := hp
  · rw [seqStep_encSize p hp, seqStep_encSize p (show (u.withDecodeSide m n a).phase = _ from hp), encSizeStep_withDecodeSide]
    rfl
  · rw [seqStep_encEmit p hp, seqStep_encEmit p (show (u.withDecodeSide m n a).phase = _ from hp), encEmitStep_withDecodeSide]

/-- An encode step leaves ACC and BUD as they are (R106, R107). -/
theorem seqStep_encode_frame {p : Params} {u v : Uvc} (hp : u.phase = .encSize ∨ u.phase = .encEmit) (h : seqStep p u = .ok v) :
    v.acc = u.acc ∧ v.bud = u.bud := by
  obtain hp | hp := hp
  · obtain rfl : encSizeStep u = v := by simpa [seqStep_encSize p hp] using h
    obtain ⟨_, he⟩ | ⟨_, he⟩ := encSizeStep_cases u <;> simp [he]
  · rw [seqStep_encEmit p hp] at h
    obtain ⟨_, rfl⟩ | ⟨_, rfl⟩ := encEmitStep_ok h <;> exact ⟨rfl, rfl⟩

/-! ## Decode -/

theorem consumeByte_withEncodeSide (u : Uvc) (b : Byte) (m : Memory) (x : Nat) :
    consumeByte (u.withEncodeSide m x) b = (consumeByte u b).withEncodeSide m x := by
  unfold consumeByte
  rw [apply_ite (Uvc.withEncodeSide m x)]
  rfl

theorem decStep_withEncodeSide (p : Params) (u : Uvc) (m : Memory) (x : Nat) :
    decStep p (u.withEncodeSide m x) = (decStep p u).map (Uvc.withEncodeSide m x) := by
  have hread : memRead p (u.withEncodeSide m x) (u.withEncodeSide m x).idx = memRead p u u.idx := rfl
  unfold decStep
  rw [hread, apply_ite (Except.map _), apply_ite (Except.map _)]
  refine if_congr Iff.rfl rfl (if_congr Iff.rfl rfl ?_)
  cases memRead p u u.idx with
  | error f => rfl
  | ok b =>
    simp only [consumeByte_withEncodeSide]
    rw [apply_ite (Except.map _)]
    rfl

/-- A decode step does not depend on the encoder's side and carries it along. -/
theorem seqStep_withEncodeSide (p : Params) {u : Uvc} (hp : u.phase = .decStep) (m : Memory) (x : Nat) :
    seqStep p (u.withEncodeSide m x) = (seqStep p u).map (Uvc.withEncodeSide m x) := by
  rw [seqStep_decStep p hp, seqStep_decStep p (show (u.withEncodeSide m x).phase = _ from hp), decStep_withEncodeSide]

/-- A decode step leaves OUT and NB as they are, and writes OUT_LEN only to clear it (R137, R181). -/
theorem seqStep_decode_frame {p : Params} {u v : Uvc} (hp : u.phase = .decStep) (h : seqStep p u = .ok v) :
    v.outBuf = u.outBuf ∧ v.outLen.toNat ≤ u.outLen.toNat ∧ v.nb = u.nb := by
  rw [seqStep_decStep p hp] at h
  obtain ⟨_, rfl⟩ | ⟨_, _, rfl⟩ | ⟨_, _, _, _, ⟨_, rfl⟩ | ⟨_, _, rfl⟩ | ⟨_, _, rfl⟩⟩ := decStep_cases h <;> simp

/-- Settles O49: the commuting squares and the frames of the two directions. -/
theorem directionsDoNotInterfere : Obligations.DirectionsDoNotInterfere := by
  refine ⟨fun p u m n a hp => ?_, fun p u m x hp => ?_⟩
  · have hcomm := seqStep_withDecodeSide p hp m n a
    refine ⟨fun v hv => ?_, fun f hf => by rw [hf] at hcomm; exact hcomm⟩
    obtain ⟨hacc, hbud⟩ := seqStep_encode_frame hp hv
    exact ⟨hacc, hbud, by rw [hv] at hcomm; exact hcomm⟩
  · have hcomm := seqStep_withEncodeSide p hp m x
    refine ⟨fun v hv => ?_, fun f hf => by rw [hf] at hcomm; exact hcomm⟩
    obtain ⟨hout, hlen, hnb⟩ := seqStep_decode_frame hp hv
    exact ⟨hout, hlen, hnb, by rw [hv] at hcomm; exact hcomm⟩

end Sys2Proof.Machine
end

