-- ==== Sys2Proof/Proofs/StatusAndConsumed.lean ====
section
/-! Proof of O55, O59 and O47: which steps write STATUS.STATE, and how far the clauses of R39 hold as the rule writes them
(10_state.md R24, R39; 42_control.md R164, R169; log 17). -/

namespace Sys2Proof.Machine

/-! ## STATUS.STATE -/

/-- Settles O55: of the effects of a step only an issue, a reset and a sequencer step touch STATE, and the invariant puts PHASE at NONE once
STATE has left BUSY. -/
theorem stateChangesOnlyAtIssueCompletionReset : Obligations.StateChangesOnlyAtIssueCompletionReset := by
  intro s t hinv hstep hne
  obtain ⟨⟨_, htinv⟩, _⟩ := stepKeepsTheInvariant s t hinv hstep
  obtain ⟨_, heffect⟩ := step_effect hstep
  generalize t.uvc = v at *
  cases heffect with
  | quiescent _ _ | observed _ _ | dropped _ _ => exact absurd rfl hne
  | stored _ _ _ _ => exact absurd (storeOperand_state _ _) hne
  | issued he hb _ => exact .inl ⟨_, _, he, hb, issue_state ..⟩
  | illegal he hb _ => exact .inl ⟨_, _, he, hb, .inr rfl⟩
  | reset n he => exact .inr (.inl ⟨_, he, rfl⟩)
  | sequencer hp hseq =>
    have hbusy := hinv.2.busy_iff.2 hp
    have hend : v.state = .ok ∨ v.state = .err := by
      obtain h | h | ⟨h, _⟩ := seqStep_ends hseq
      · exact absurd h hne
      · exact .inr h
      · exact .inl h
    exact .inr (.inr ⟨hbusy, htinv.phase_none (hbusy ▸ hne), hend⟩)

/-! ## CONSUMED and IN_LEN in the state OK -/

section
variable {p : Params} {u v : Uvc} {es : List Event}

/-- Under the invariant R39 asks for one thing more: CONSUMED <= IN_LEN in the state OK. -/
theorem Uvc.Inv.r39_iff (hwf : p.wf = true) (h : u.Inv p) :
    u.R39 p ↔ (u.state = .ok → u.consumed.toNat ≤ u.inLen.toNat) := by
  refine ⟨fun hr hok => (hr.ok_le hok).2, fun hle => ?_⟩
  refine ⟨h.busy_iff, fun hph => ?_, fun hph => ?_, h.cause_iff, fun hok => ⟨h.outLen_le, hle hok⟩⟩
  · obtain ⟨hidx, hin, _, ⟨b, hbud⟩, _⟩ := h.dec_step hph
    refine ⟨hidx, hin, b, fun k hk => ?_⟩
    rw [hk] at hbud
    cases hb : boundOf b u.maxReg with
    | unb => simp [hb, budgetAfter] at hbud
    | fin m => exact ⟨m, rfl, by simpa [hb, budgetAfter] using hbud⟩
  · obtain ⟨hpos, hle⟩ := h.nb_le hwf hph
    exact ⟨hpos, hle, (h.enc_emit hph).2.1⟩

/-- The step that makes STATE OK is a completing sequencer step: an encode has CONSUMED at 0, a decode has read within IN_LEN. -/
theorem StepEffect.consumed_le_of_completes (h : u.Inv p) (he : StepEffect p u es v) (hu : u.state ≠ .ok) (hv : v.state = .ok) :
    v.consumed.toNat ≤ v.inLen.toNat := by
  cases he with
  | quiescent _ _ | observed _ _ | dropped _ _ => exact absurd hv hu
  | stored _ _ _ _ => exact absurd ((storeOperand_state _ _).symm.trans hv) hu
  | issued _ _ _ => exact (issue_state_ne_ok _ _ _ _ hv).elim
  | illegal _ _ _ | reset _ _ => cases hv
  | sequencer hp hseq =>
    obtain h' | h' | ⟨_, h' | h'⟩ := seqStep_ends hseq
    · exact absurd (h'.symm.trans hv) hu
    · rw [h'] at hv
      cases hv
    · simp [h', (h.results_clear_of_phase hp).2.2]
    · exact h'

/-- A step from OK to OK keeps CONSUMED, and IN_LEN unless it is a host write of IN_LEN. -/
theorem StepEffect.frame_of_ok (h : u.Inv p) (he : StepEffect p u es v) (hu : u.state = .ok) (hv : v.state = .ok) :
    v.consumed = u.consumed ∧ (v.inLen = u.inLen ∨ ∃ n rest, es = .write (.inLen n) :: rest ∧ v.inLen = n) := by
  cases he with
  | quiescent _ _ | observed _ _ | dropped _ _ => exact ⟨rfl, .inl rfl⟩
  | sequencer hp _ => exact absurd (h.phase_none (by simp [hu])) hp
  | issued _ _ _ => exact (issue_state_ne_ok _ _ _ _ hv).elim
  | illegal _ _ _ | reset _ _ => cases hv
  | @stored w rest he _ _ _ =>
    refine ⟨storeOperand_consumed w u, ?_⟩
    by_cases hw : ∃ n, w = .inLen n
    · obtain ⟨n, rfl⟩ := hw
      exact .inr ⟨n, rest, he, rfl⟩
    · exact .inl (storeOperand_inLen u fun n hn => hw ⟨n, hn⟩)

/-- With a host write of IN_LEN pending and no command in progress, the step is that write (R164). -/
theorem StepEffect.eq_of_inLen (h : u.Inv p) (hu : u.state ≠ .busy) {n : Half} {rest : List Event}
    (he : StepEffect p u (.write (.inLen n) :: rest) v) : v = { u with inLen := n } := by
  cases he with
  | quiescent he _ | issued he _ _ | illegal he _ _ | reset _ he => cases he
  | observed he hr =>
    cases he
    obtain hr | ⟨_, hr⟩ := hr <;> cases hr
  | sequencer hp _ => exact absurd (h.phase_none hu) hp
  | dropped _ hb => exact absurd hb hu
  | stored he _ _ _ =>
    cases he
    rfl

end

/-- Settles O59, clause by clause, from what a step does to CONSUMED and IN_LEN. -/
theorem consumedWithinInLenUntilRewritten : Obligations.ConsumedWithinInLenUntilRewritten := by
  refine ⟨fun s t hinv hstep hs ht => ?_, fun s t hinv hstep hs ht hle hnw => ?_, fun p hp => ?_, fun p u hp hu => hu.r39_iff hp,
    fun s t hinv hr39 hstep => ?_⟩
  · exact (step_effect hstep).2.consumed_le_of_completes hinv.2 hs ht
  · obtain ⟨hcons, hlen | ⟨n, rest, he, _⟩⟩ := (step_effect hstep).2.frame_of_ok hinv.2 hs ht
    · rwa [hcons, hlen]
    · exact absurd he (hnw n rest)
  · exact ((Uvc.reset_inv p).r39_iff hp).2 (by intro hok; cases hok)
  · obtain ⟨⟨htwf, htinv⟩, _⟩ := stepKeepsTheInvariant s t hinv hstep
    obtain ⟨_, heffect⟩ := step_effect hstep
    rw [htinv.r39_iff htwf]
    constructor
    · rintro hle ⟨hs, n, rest, he, hn⟩
      have ht := (he ▸ heffect).eq_of_inLen hinv.2 (by simp [hs])
      rw [ht] at hle
      exact absurd (hle hs) (not_le.2 hn)
    · intro hnot ht
      by_cases hs : s.uvc.state = .ok
      · obtain ⟨hcons, hlen | ⟨n, rest, he, hlen⟩⟩ := heffect.frame_of_ok hinv.2 hs ht <;> rw [hcons, hlen]
        · exact (hr39.ok_le hs).2
        · exact not_lt.1 fun hlt => hnot ⟨hs, n, rest, he, hlt⟩
      · exact heffect.consumed_le_of_completes hinv.2 hs ht

/-- A decode of the one byte 0 has ended with OK, and the host is about to write 0 to IN_LEN, as in P6 of 95_test_vectors.md. -/
def decodedThenRewritten : State :=
  { State.reset with
    uvc := { Uvc.reset with state := .ok, inLen := 1, consumed := 1, inBuf := [(0, 0)], bud := .unb, idx := 1 }
    events := [.write (.inLen 0)] }

theorem decodedThenRewritten_inv : decodedThenRewritten.Inv := by
  refine ⟨by decide, ?_⟩
  constructor <;> simp [decodedThenRewritten, Uvc.reset, Memory.wf, Memory.below, State.reset, State.resetWith, Params.reference]

/-- Settles O47: R164 stores the 0, and CONSUMED stays 1. -/
theorem consumedMayPassInLenAfterCompletion : Obligations.ConsumedMayPassInLenAfterCompletion := by
  have hstep : step decodedThenRewritten =
      .next { decodedThenRewritten with uvc := { decodedThenRewritten.uvc with inLen := 0 }, events := [] } := rfl
  exact ⟨_, _, decodedThenRewritten_inv, rfl, by decide, hstep, (stepKeepsTheInvariant _ _ decodedThenRewritten_inv hstep).1, rfl,
    by decide⟩

end Sys2Proof.Machine
end

