-- ==== Sys2Proof/Proofs/ResetAndFetch.lean ====
section
/-! Proof of O15 and O18: the state right after reset has no step of its own, and a prepared command word is the next step
(10_state.md R22, R34; 70_reset_and_hazards.md R204; log 1, 15). -/

namespace Sys2Proof.Machine

/-- Settles O15: nothing is pending and PHASE is NONE, so the step holds the state. -/
theorem powerOnStateIsQuiescent : Obligations.PowerOnStateIsQuiescent := by
  refine ⟨rfl, rfl, fun p u hu => ?_⟩
  subst hu
  exact ⟨rfl, rfl, rfl, rfl, rfl, rfl, rfl, rfl, rfl, rfl, fun _ => ⟨rfl, rfl⟩, step_quiescent rfl rfl⟩

/-- The word of a command decodes to it (R72). -/
theorem decode_encode (i : Instr) : decode (encode i) = .ok i := by cases i <;> decide

/-- A table word of 8 bits is the command word itself (R71). -/
theorem withFetchWord_encode (s : State) (i : Instr) : s.withFetchWord 8 (encode i).toNat = s.withCommand (encode i) := by
  have hword : BitVec.ofNat 8 ((encode i).toNat % 2 ^ 8) = encode i := by
    rw [Nat.mod_eq_of_lt (encode i).isLt, BitVec.ofNat_toNat, BitVec.setWidth_eq]
  rw [State.withFetchWord, hword]

/-- The prepared write of CMD has the next turn, and taking it uses up what preparing it added (R57, R61; log 15). -/
theorem chooseTurn_withCommand (s : State) (c : Byte) :
    chooseTurn (s.withCommand c) = (some .external, { s with events := .write (.cmd c) :: s.events }) := by
  have hext : (s.withCommand c).externalReady = true := rfl
  have hseq : (s.withCommand c).sequencerReady = s.sequencerReady := rfl
  rw [chooseTurn, hext, hseq]
  cases hready : s.sequencerReady <;> simp [State.withCommand, hready]

/-- The step after a prepared word is the host's write of it to CMD. -/
theorem step_withCommand (s : State) (c : Byte) : step (s.withCommand c) = writeCommand c s := by
  rw [step, chooseTurn_withCommand]
  rfl

/-- Settles O18: the word decodes to the command, whose issue the step then is. -/
theorem fetchWordRunsCommand : Obligations.FetchWordRunsCommand := by
  intro s i
  rw [withFetchWord_encode, step_withCommand, writeCommand, decode_encode]

end Sys2Proof.Machine
end

