-- ==== Sys2Proof/Proofs/PendingEvent.lean ====
section
/-! Proof of O57 and O17: who has the turn where an event is pending, and that the outside's turn runs that event (20_memory.md R57, R61;
42_control.md R160, R164 to R167; log 7, 8, 14). -/

namespace Sys2Proof.Machine

/-! ## Who has the turn -/

section
variable {s : State} {e : Event} {rest : List Event} (he : s.events = e :: rest)
include he

/-- With no command in progress the outside has the turn (R171). -/
theorem step_of_pending (hp : s.uvc.phase = .none) : step s = externalTurn s := by
  simp [step, chooseTurn, State.externalReady, he, State.sequencerReady, hp, takeTurn]

/-- Where both agents have a step, the schedule says who moves (R61; log 8). -/
theorem step_of_schedule (hp : s.uvc.phase ≠ .none) {a : Agent} {l : List Agent} (hl : s.schedule = a :: l) :
    step s = takeTurn (some a, { s with schedule := l }) := by
  simp [step, chooseTurn, State.externalReady, he, State.sequencerReady, hp, hl]

/-- Where both agents have a step and the schedule is exhausted, the turn is free (R61; log 8). -/
theorem step_of_schedule_nil (hp : s.uvc.phase ≠ .none) (hl : s.schedule = []) :
    step s = takeTurn (some (freeTurn s.fresh), { s with fresh := s.fresh + 1 }) := by
  simp [step, chooseTurn, State.externalReady, he, State.sequencerReady, hp, hl]

/-! ## The outside's turn -/

/-- The outside runs its first event, with the others left pending (R57). -/
theorem externalTurn_of_wf (hwf : e.wf s.params = true) : externalTurn s = runEvent e { s with events := rest } := by
  simp [externalTurn, he, hwf]

/-- An action that does not exist in the interface is refused (R167; log 14). -/
theorem externalTurn_of_not_wf (hwf : e.wf s.params = false) : externalTurn s = .refused (.noSuchHostAction e) := by
  simp [externalTurn, he, hwf]

end

/-- A write of a command's word to CMD executes the command (R160). -/
theorem runEvent_write_cmd {c : Byte} {i : Instr} (hd : decode c = .ok i) (s : State) : runEvent (.write (.cmd c)) s = exec i s := by
  simp [runEvent, hostWrite, writeCommand, hd]

/-- Settles O57: each clause is who has the turn, and then what that turn does. -/
theorem stepRunsPendingEvent : Obligations.StepRunsPendingEvent := by
  refine ⟨fun s e rest he => ⟨fun hwf => ⟨fun hp => ?_, fun hp l hl => ?_, fun hp hl => ?_⟩, fun hwf hp => ?_, fun hp l hl => ?_⟩,
    fun s => ⟨fun _ => rfl, fun _ => rfl, rfl⟩⟩
  · rw [step_of_pending he hp, externalTurn_of_wf he hwf]
  · rw [step_of_schedule he hp hl]
    exact externalTurn_of_wf (s := { s with schedule := l }) he hwf
  · rw [step_of_schedule_nil he hp hl]
    cases freeTurn s.fresh with
    | external => exact externalTurn_of_wf (s := { s with fresh := s.fresh + 1 }) he hwf
    | sequencer => rfl
  · rw [step_of_pending he hp, externalTurn_of_not_wf he hwf]
  · rw [step_of_schedule he hp hl]
    rfl

/-- Settles O17: the pending event is the write of the command's word, which exists in every configuration. -/
theorem stepRunsDecodedCommand : Obligations.StepRunsDecodedCommand := by
  intro s c i rest he hd _
  obtain ⟨hrest, hscheduled, hfree⟩ := (stepRunsPendingEvent.1 s _ rest he).1 rfl
  simp only [runEvent_write_cmd hd] at hrest hscheduled hfree
  exact ⟨hrest, hscheduled, hfree⟩

end Sys2Proof.Machine
end

