-- ==== Sys2Proof/Proofs/OperandsAndResult.lean ====
section
/-! Proof of O48 and O52: a command in progress keeps its operands, only the sequencer moves its UVC, and so every run passes through the
states of the sequencer's own run (20_memory.md R58, R61, R65; 42_control.md R165). -/

namespace Sys2Proof.Machine

/-! ## The operands of a command in progress -/

/-- No sequencer step writes a register or a byte that only the host writes (R65, R106, R107, R137). -/
theorem seqStep_operandsKept {p : Params} {u v : Uvc} (h : seqStep p u = .ok v) : OperandsKept u v := by
  cases hp : u.phase with
  | none =>
    obtain rfl : u = v := by simpa [seqStep_none p hp] using h
    exact ⟨rfl, rfl, rfl, rfl⟩
  | encSize =>
    obtain rfl : encSizeStep u = v := by simpa [seqStep_encSize p hp] using h
    obtain ⟨_, he⟩ | ⟨_, he⟩ := encSizeStep_cases u <;> rw [he] <;> exact ⟨rfl, rfl, rfl, rfl⟩
  | encEmit =>
    rw [seqStep_encEmit p hp] at h
    obtain ⟨_, rfl⟩ | ⟨_, rfl⟩ := encEmitStep_ok h <;> exact ⟨rfl, rfl, rfl, rfl⟩
  | decStep =>
    rw [seqStep_decStep p hp] at h
    obtain ⟨_, rfl⟩ | ⟨_, _, rfl⟩ | ⟨_, _, _, _, ⟨_, rfl⟩ | ⟨_, _, rfl⟩ | ⟨_, _, rfl⟩⟩ := decStep_cases h <;>
      exact ⟨rfl, rfl, rfl, rfl⟩

/-- While BUSY a host write is dropped (R165), a read has no effect (R58), and only a reset is left to change the UVC. -/
theorem runEvent_uvc_of_busy {e : Event} {s t : State} (hb : s.uvc.state = .busy) (he : e ≠ .reset) (h : runEvent e s = .next t) :
    t.uvc = s.uvc := by
  cases e with
  | write w =>
    obtain ⟨f, hf, _⟩ := hostWrite_cases w s
    obtain rfl : s.hostStore f = t := by simpa [runEvent, hf] using h
    rw [State.hostStore_busy f hb]
  | read r => exact (hostRead_frame h).2
  | poll =>
    have hread : hostRead .status { s with events := .poll :: s.events } = .next t := by simpa [runEvent, hb] using h
    exact (hostRead_frame hread).2
  | reset => exact absurd rfl he

/-- Settles O48. -/
theorem operandsFixedWhileBusy : Obligations.OperandsFixedWhileBusy := by
  refine ⟨fun p u v h => seqStep_operandsKept h, fun s t e rest hb hes he h => ?_⟩
  cases hwf : e.wf s.params with
  | true =>
    rw [externalTurn_of_wf hes hwf] at h
    exact runEvent_uvc_of_busy (s := { s with events := rest }) hb he h
  | false =>
    rw [externalTurn_of_not_wf hes hwf] at h
    cases h

/-! ## The pending events only dwindle -/

theorem hostRead_events {r : HostRead} {s t : State} (h : hostRead r s = .next t) : t.events = s.events := by
  unfold hostRead at h
  cases hr : readValue r s.uvc with
  | ok v =>
    obtain rfl : { s with readBack := (r, v) :: s.readBack } = t := by simpa [hr] using h
    rfl
  | error f => simp [hr] at h

/-- An event leaves the events after it pending, and of itself at most the poll that repeats (R81; log 11). -/
theorem runEvent_events_subset {e : Event} {s t : State} (h : runEvent e s = .next t) : t.events ⊆ e :: s.events := by
  cases e with
  | write w =>
    obtain ⟨f, hf, _⟩ := hostWrite_cases w s
    obtain rfl : s.hostStore f = t := by simpa [runEvent, hf] using h
    simp
  | read r => simp [hostRead_events (h : hostRead r s = .next t)]
  | poll =>
    by_cases hb : s.uvc.state = .busy
    · have hread : hostRead .status { s with events := .poll :: s.events } = .next t := by simpa [runEvent, hb] using h
      exact hostRead_events hread ▸ List.Subset.refl _
    · have hread : hostRead .status s = .next t := by simpa [runEvent, hb] using h
      simp [hostRead_events hread]
  | reset =>
    obtain rfl : resetEvent s = t := by simpa [runEvent] using h
    simp

theorem externalTurn_events_subset {s t : State} (h : externalTurn s = .next t) : t.events ⊆ s.events := by
  cases hes : s.events with
  | nil =>
    obtain rfl : s = t := by simpa [externalTurn, hes] using h
    exact hes ▸ List.Subset.refl _
  | cons e rest =>
    cases hwf : e.wf s.params with
    | true => exact runEvent_events_subset (s := { s with events := rest }) (externalTurn_of_wf hes hwf ▸ h)
    | false => cases (externalTurn_of_not_wf hes hwf).symm.trans h

theorem sequencerTurn_events {s t : State} (h : sequencerTurn s = .next t) : t.events = s.events := by
  unfold sequencerTurn at h
  split at h
  · next u _ =>
    obtain rfl : { s with uvc := u } = t := by simpa using h
    rfl
  · cases h

/-- No step makes the outside plan an event it had not planned. -/
theorem step_events_subset {s t : State} (h : step s = .next t) : t.events ⊆ s.events := by
  obtain ⟨l, n, hs, hturn⟩ := chooseTurn_cases s
  obtain ⟨ha, _⟩ | ⟨ha, _⟩ | ⟨ha, _⟩ := hturn <;> rw [step, ← Prod.mk.eta (p := chooseTurn s), hs, ha] at h
  · obtain rfl : { s with schedule := l, fresh := n } = t := by simpa [takeTurn] using h
    exact List.Subset.refl _
  · exact externalTurn_events_subset (s := { s with schedule := l, fresh := n }) h
  · exact sequencerTurn_events (s := { s with schedule := l, fresh := n }) h ▸ List.Subset.refl _

/-! ## The sequencer's own run -/

/-- While BUSY with no reset pending, a step is the sequencer's or leaves the UVC as it is (R65, R165). -/
theorem step_uvc_of_busy {s t : State} (hb : s.uvc.state = .busy) (hr : ∀ e ∈ s.events, e ≠ .reset) (h : step s = .next t) :
    t.uvc = s.uvc ∨ seqStep s.params s.uvc = .ok t.uvc := by
  obtain ⟨_, heffect⟩ := step_effect h
  generalize t.uvc = v at *
  cases heffect with
  | quiescent _ _ | observed _ _ | dropped _ _ => exact .inl rfl
  | sequencer _ hseq => exact .inr hseq
  | issued _ hnb _ | illegal _ hnb _ | stored _ hnb _ _ => exact absurd hb hnb
  | reset _ he => exact absurd rfl (hr .reset (by simp [he]))

/-- Completing in 0 steps is having ended. -/
theorem CompletesAfter.eq_of_zero {p : Params} {u v : Uvc} (h : CompletesAfter p 0 u v) : u = v := by
  simpa using h.1

/-- A command in progress has a step to go. -/
theorem CompletesAfter.pos {p : Params} {k : Nat} {u v : Uvc} (h : CompletesAfter p k u v) (hb : u.state = .busy) : 0 < k := by
  refine Nat.pos_of_ne_zero fun hk => ?_
  subst hk
  exact h.2.1 (h.eq_of_zero ▸ hb)

/-- A command that completes in `k + 1` steps is in progress now. -/
theorem CompletesAfter.busy {p : Params} {k : Nat} {u v : Uvc} (h : CompletesAfter p (k + 1) u v) : u.state = .busy := by
  obtain ⟨m, hm, hb⟩ := h.2.2 0 k.succ_pos
  obtain rfl : u = m := by simpa using hm
  exact hb

/-- One sequencer step of a command brings its end one step nearer. -/
theorem CompletesAfter.of_seqStep {p : Params} {k : Nat} {u v w : Uvc} (h : CompletesAfter p (k + 1) u v) (hs : seqStep p u = .ok w) :
    CompletesAfter p k w v := by
  obtain ⟨hrun, hend, hbusy⟩ := h
  refine ⟨seqRun_succ k hs ▸ hrun, hend, fun j hj => ?_⟩
  obtain ⟨m, hm, hmb⟩ := hbusy (j + 1) (by omega)
  exact ⟨m, seqRun_succ j hs ▸ hm, hmb⟩

/-- Settles O52, by induction on the steps of the machine: each one either leaves the UVC, and with it the sequencer's run from here, as it
is, or is the first step of that run. -/
theorem resultDoesNotDependOnSchedule : Obligations.ResultDoesNotDependOnSchedule := by
  rintro s t n k v - hb hk hr hrun
  induction n generalizing s k with
  | zero =>
    obtain rfl : s = t := Host.Outcome.next.inj hrun
    exact .inl ⟨0, hk.pos hb, rfl⟩
  | succ n ih =>
    obtain ⟨x, hstep, hxrun⟩ := core_run_succ_next n hrun
    obtain ⟨hp, _⟩ := step_effect hstep
    have hxr : ∀ e ∈ x.events, e ≠ .reset := fun e he => hr e (step_events_subset hstep he)
    have hlater : (∃ (m : Nat) (y : State), m ≤ n ∧ Host.Core.run Sys2Proof.core m x = .next y ∧ y.uvc = v) →
        ∃ (m : Nat) (y : State), m ≤ n + 1 ∧ Host.Core.run Sys2Proof.core m s = .next y ∧ y.uvc = v :=
      fun ⟨m, y, hm, hy, hv⟩ => ⟨m + 1, y, by omega, (core_run_succ m hstep).trans hy, hv⟩
    obtain hu | hseq := step_uvc_of_busy hb hr hstep
    · rw [← hu] at hb hk ⊢
      rw [← hp] at hk ⊢
      exact (ih x k hb hk hxr hxrun).imp_right hlater
    · obtain ⟨k, rfl⟩ := Nat.exists_eq_add_one.2 (hk.pos hb)
      have hxk := hk.of_seqStep hseq
      cases k with
      | zero => exact .inr ⟨1, x, by omega, core_run_succ 0 hstep, hxk.eq_of_zero⟩
      | succ k =>
        obtain ⟨j, hj, hjrun⟩ | hend := ih x (k + 1) hxk.busy (hp ▸ hxk) hxr hxrun
        · exact .inl ⟨j + 1, by omega, by rw [seqRun_succ j hseq, ← hp, hjrun]⟩
        · exact .inr (hlater hend)

end Sys2Proof.Machine
end

