-- ==== Sys2Proof/Proofs/Uintvar.lean ====
section
/-! Proof of O25 and O28: the two fields of a wire byte, and where a uintvar at the front of a list of bytes ends
(30_encoding.md R76 to R78). -/

namespace Sys2Proof.Machine

/-! ## Wire bytes -/

/-- A byte is its continuation bit above its data group (R76). -/
theorem toNat_eq_contBit_add_dataGroup (b : Byte) : b.toNat = (if contBit b = true then 128 else 0) + (dataGroup b).toNat := by
  have hlt := b.isLt
  rw [dataGroup_toNat]
  split
  · next hc =>
    have := (contBit_iff b).1 hc
    omega
  · next hc =>
    have := mt (contBit_iff b).2 hc
    omega

/-- The two fields determine the byte (R76). -/
theorem byte_eq_of_fields {a b : Byte} (hc : contBit a = contBit b) (hd : dataGroup a = dataGroup b) : a = b :=
  BitVec.eq_of_toNat_eq (by rw [toNat_eq_contBit_add_dataGroup a, toNat_eq_contBit_add_dataGroup b, hc, hd])

/-- Packing what unpacking gives is the byte itself (R76, R103). -/
theorem pack_contBit_dataGroup (b : Byte) : pack (contBit b) (dataGroup b) = b :=
  byte_eq_of_fields (contBit_pack ..) (dataGroup_pack ..)

/-- Settles O25. -/
theorem wireByteFields : Obligations.WireByteFields :=
  ⟨fun b => ⟨rfl, dataGroup_toNat b, toNat_eq_contBit_add_dataGroup b, pack_contBit_dataGroup b⟩,
    fun c g => ⟨contBit_pack c g, dataGroup_pack c g⟩⟩

/-! ## The end of a uintvar -/

/-- A uintvar is one last byte, or a byte that continues before a uintvar (R77). -/
theorem wellFormedUintvar_cons_iff (b : Byte) (l : List Byte) :
    wellFormedUintvar (b :: l) = true ↔ (contBit b = false ∧ l = []) ∨ (contBit b = true ∧ wellFormedUintvar l = true) := by
  cases l <;> simp [wellFormedUintvar]

/-- A uintvar has a last byte, which does not continue (R77). -/
theorem wellFormedUintvar_of_all_contBit {l : List Byte} (h : ∀ b ∈ l, contBit b = true) : wellFormedUintvar l = false := by
  induction l with
  | nil => rfl
  | cons b l ih =>
    obtain ⟨hb, hl⟩ := List.forall_mem_cons.1 h
    rw [Bool.eq_false_iff, ne_eq, wellFormedUintvar_cons_iff]
    simp [hb, ih hl]

/-- The length a reader finds is that of the uintvar at the front (R78). -/
theorem uintvarLength_eq_some_iff (l : List Byte) (n : Nat) :
    uintvarLength l = some n ↔ n ≤ l.length ∧ wellFormedUintvar (l.take n) = true := by
  induction l generalizing n with
  | nil => simp [uintvarLength, wellFormedUintvar]
  | cons b l ih =>
    cases n with
    | zero => cases hc : contBit b <;> simp [uintvarLength, wellFormedUintvar, hc]
    | succ n =>
      rw [List.take_succ_cons, wellFormedUintvar_cons_iff]
      cases hc : contBit b with
      | true => simp [uintvarLength, hc, ih]
      | false =>
        have hend : n = 0 ↔ n ≤ l.length ∧ (n = 0 ∨ l = []) := by
          rw [← List.length_eq_zero_iff]
          omega
        simpa [uintvarLength, hc] using hend

/-- Settles O28, from what a found length says and from the last byte of a uintvar. -/
theorem readerFindsTheLength : Obligations.ReaderFindsTheLength := by
  refine ⟨fun l r hl => ?_, fun l hall => ?_, fun l n hn => ?_⟩
  · exact (uintvarLength_eq_some_iff _ _).2 ⟨by simp, by simpa using hl⟩
  · have hprefix (n : Nat) : wellFormedUintvar (l.take n) = false :=
      wellFormedUintvar_of_all_contBit fun b hb => hall b (List.mem_of_mem_take hb)
    refine ⟨Option.eq_none_iff_forall_ne_some.2 fun n hn => ?_, hprefix⟩
    have := ((uintvarLength_eq_some_iff l n).1 hn).2
    simp [hprefix n] at this
  · obtain ⟨hle, hwf⟩ := (uintvarLength_eq_some_iff l n).1 hn
    exact ⟨hwf, List.length_take_of_le hle⟩

end Sys2Proof.Machine
end

