-- ==== Sys2Proof/Proofs/DecodeFn.lean ====
section
/-! Proof of O33: the loop of DecodeFn succeeds exactly on a uintvar at the front of its input, whose bytes it assembles one after the
other (30_encoding.md R77; 41_decoder.md R131 to R135). -/

namespace Sys2Proof.Machine

/-! ## The value of the assembled bytes -/

/-- Assembling the bytes of a list from an accumulator appends their value below it (R77, R131). -/
theorem foldl_assemble (acc : Nat) (l : List Byte) : l.foldl assemble acc = acc * 2 ^ (7 * l.length) + uintvarVal l := by
  induction l generalizing acc with
  | nil => simp [uintvarVal]
  | cons b l ih =>
    rw [List.foldl_cons, ih, assemble_eq, uintvarVal, Nat.shiftLeft_eq, List.length_cons]
    ring

/-- From an empty accumulator the bytes assemble to their value (R77, R131). -/
theorem foldl_assemble_zero (l : List Byte) : l.foldl assemble 0 = uintvarVal l := by simp [foldl_assemble]

theorem le_foldl_assemble (acc : Nat) (l : List Byte) : acc ≤ l.foldl assemble acc := by
  rw [foldl_assemble]
  exact (Nat.le_mul_of_pos_right acc (by positivity)).trans (Nat.le_add_right ..)

/-- The assembled value fits W bits exactly where the capacity check passes (R134). -/
theorem assemble_lt_iff {p : Params} (hwf : p.wf = true) (acc : Nat) (b : Byte) :
    assemble acc b < 2 ^ p.w ↔ capacityExceeded p acc = false := by
  rw [capacityExceeded_eq_false_iff]
  refine ⟨fun h => ?_, assemble_lt_of_capacity hwf b⟩
  obtain ⟨hw, _, _⟩ := (Params.wf_iff p).1 hwf
  rw [assemble_eq, show p.w = p.w - 7 + 7 by omega, Nat.pow_add] at h
  omega

/-! ## The budget of a count of bytes -/

/-- A budget lets one byte through exactly where it is not spent (R133, R135). -/
theorem exceedsBound_one (b : Bound) : exceedsBound b 1 = budgetSpent b := by
  cases b with
  | unb => rfl
  | fin k => simp [exceedsBound, budgetSpent, ← BitVec.toNat_inj]

/-- A budget lets one byte more through exactly where it is not spent and, less one, lets the others through (R133, R135). -/
theorem exceedsBound_succ (b : Bound) (n : Nat) :
    exceedsBound b (n + 1) = false ↔ budgetSpent b = false ∧ exceedsBound (decBudget b) n = false := by
  cases b with
  | unb => simp [exceedsBound, budgetSpent, decBudget]
  | fin k =>
    by_cases hk : k = 0
    · simp [exceedsBound, budgetSpent, hk]
    · obtain ⟨j, hj, hsucc⟩ := decBudget_fin hk
      rw [hj]
      simpa [exceedsBound, budgetSpent, ← hsucc] using fun _ => hk

/-- A count passes the bound exactly where a finite bound is no less (R105). -/
theorem exceedsBound_eq_false_iff (b : Bound) (n : Nat) : exceedsBound b n = false ↔ ∀ k, b = .fin k → n ≤ k.toNat := by
  cases b <;> simp [exceedsBound]

/-! ## The loop -/

/-- One pass of the loop succeeds where the three checks pass: it ends on the last byte, and goes on otherwise (R135). -/
theorem decodeLoop_cons_ok_iff (p : Params) (acc i : Nat) (bud : Bound) (b : Byte) (l : List Byte) (r : Nat × Nat) :
    decodeLoop p acc i bud (b :: l) = .ok r ↔ budgetSpent bud = false ∧ capacityExceeded p acc = false ∧
      ((contBit b = false ∧ (assemble acc b, i + 1) = r) ∨
       (contBit b = true ∧ decodeLoop p (assemble acc b) (i + 1) (decBudget bud) l = .ok r)) := by
  cases hb : budgetSpent bud <;> cases hcap : capacityExceeded p acc <;> cases hc : contBit b <;> simp [decodeLoop, hb, hcap, hc]

/-- The bytes `q` are a uintvar that the loop accepts from the accumulator `acc` within the budget `bud`, with the value `v`. -/
structure AcceptedFrom (p : Params) (acc : Nat) (bud : Bound) (q : List Byte) (v : Nat) : Prop where
  wellFormed : wellFormedUintvar q = true
  value : q.foldl assemble acc = v
  fits : v < 2 ^ p.w
  bounded : exceedsBound bud q.length = false

/-- The first byte of an accepted uintvar passes the checks; the uintvar ends there, or the rest is accepted after it (R135). -/
theorem acceptedFrom_cons_iff {p : Params} (hwf : p.wf = true) (acc : Nat) (bud : Bound) (b : Byte) (q : List Byte) (v : Nat) :
    AcceptedFrom p acc bud (b :: q) v ↔ budgetSpent bud = false ∧ capacityExceeded p acc = false ∧
      ((contBit b = false ∧ q = [] ∧ assemble acc b = v) ∨
       (contBit b = true ∧ AcceptedFrom p (assemble acc b) (decBudget bud) q v)) := by
  constructor
  · rintro ⟨hq, hv, hfit, hbound⟩
    obtain ⟨hspent, hrest⟩ := (exceedsBound_succ bud q.length).1 hbound
    have hcap : capacityExceeded p acc = false :=
      (assemble_lt_iff hwf acc b).1 ((le_foldl_assemble (assemble acc b) q).trans_lt (hv ▸ hfit))
    refine ⟨hspent, hcap, ?_⟩
    obtain ⟨hc, rfl⟩ | ⟨hc, hq⟩ := (wellFormedUintvar_cons_iff b q).1 hq
    · exact .inl ⟨hc, rfl, hv⟩
    · exact .inr ⟨hc, hq, hv, hfit, hrest⟩
  · rintro ⟨hspent, hcap, ⟨hc, rfl, rfl⟩ | ⟨hc, hq, hv, hfit, hrest⟩⟩
    · exact ⟨(wellFormedUintvar_cons_iff b []).2 (.inl ⟨hc, rfl⟩), rfl, (assemble_lt_iff hwf acc b).2 hcap,
        (exceedsBound_one bud).trans hspent⟩
    · exact ⟨(wellFormedUintvar_cons_iff b q).2 (.inr ⟨hc, hq⟩), hv, hfit, (exceedsBound_succ bud q.length).2 ⟨hspent, hrest⟩⟩

/-- The empty list is no uintvar (R77). -/
theorem not_acceptedFrom_nil (p : Params) (acc : Nat) (bud : Bound) (v : Nat) : ¬ AcceptedFrom p acc bud [] v :=
  fun h => Bool.false_ne_true h.wellFormed

/-- The loop succeeds exactly on an accepted uintvar at the front of its input, and counts its bytes (R135). -/
theorem decodeLoop_ok_iff {p : Params} (hwf : p.wf = true) (acc i : Nat) (bud : Bound) (l : List Byte) (v c : Nat) :
    decodeLoop p acc i bud l = .ok (v, c) ↔ ∃ q, q <+: l ∧ i + q.length = c ∧ AcceptedFrom p acc bud q v := by
  induction l generalizing acc i bud with
  | nil => cases hb : budgetSpent bud <;> simp [decodeLoop, hb, not_acceptedFrom_nil]
  | cons b l ih =>
    rw [decodeLoop_cons_ok_iff, ih]
    constructor
    · rintro ⟨hspent, hcap, ⟨hc, hr⟩ | ⟨hc, q, hql, hlen, hq⟩⟩
      · obtain ⟨hv, hlen⟩ := Prod.mk.inj hr
        exact ⟨[b], by simp, hlen, (acceptedFrom_cons_iff hwf ..).2 ⟨hspent, hcap, .inl ⟨hc, rfl, hv⟩⟩⟩
      · exact ⟨b :: q, by simpa using hql, by rw [List.length_cons]; omega,
          (acceptedFrom_cons_iff hwf ..).2 ⟨hspent, hcap, .inr ⟨hc, hq⟩⟩⟩
    · rintro ⟨q, hql, hlen, hq⟩
      obtain rfl | ⟨t, rfl, htl⟩ := List.prefix_cons_iff.1 hql
      · exact (not_acceptedFrom_nil _ _ _ _ hq).elim
      · obtain ⟨hspent, hcap, ⟨hc, rfl, rfl⟩ | ⟨hc, ht⟩⟩ := (acceptedFrom_cons_iff hwf ..).1 hq
        · exact ⟨hspent, hcap, .inl ⟨hc, by rw [← hlen]; rfl⟩⟩
        · exact ⟨hspent, hcap, .inr ⟨hc, t, htl, by rw [List.length_cons] at hlen; omega, ht⟩⟩

/-- DecodeFn forgets nothing of a success of its loop (R135). -/
theorem decodeFn_ok_iff (p : Params) (b : Bound) (l : List Byte) (r : Nat × Nat) :
    decodeFn p b l = .ok r ↔ decodeLoop p 0 0 b l = .ok r := by
  unfold decodeFn decodeRun
  cases decodeLoop p 0 0 b l <;> simp

/-- Settles O33: the loop starts from an empty accumulator, and the uintvar it accepts is the part of the input it consumes. -/
theorem decodeFnAcceptsExactlyUintvars : Obligations.DecodeFnAcceptsExactlyUintvars := by
  intro p b l v c hwf
  rw [decodeFn_ok_iff, decodeLoop_ok_iff hwf]
  constructor
  · rintro ⟨q, hql, hlen, hq, hv, hfit, hbound⟩
    obtain rfl : q.length = c := by omega
    rw [← List.prefix_iff_eq_take.1 hql]
    exact ⟨hql.length_le, hq, (foldl_assemble_zero q).symm.trans hv, hfit, (exceedsBound_eq_false_iff ..).1 hbound⟩
  · rintro ⟨hle, hq, hv, hfit, hbound⟩
    have hlen : (l.take c).length = c := List.length_take_of_le hle
    exact ⟨l.take c, List.take_prefix c l, by omega, hq, (foldl_assemble_zero _).trans hv, hfit,
      (exceedsBound_eq_false_iff ..).2 (hlen.symm ▸ hbound)⟩

end Sys2Proof.Machine
end

