-- ==== Sys2Proof/Proofs/CommandWord.lean ====
section
/-! Proof of O1, O2 and O3: a word is a command exactly by its four fields, and then it is that command's word
(30_encoding.md R70 to R74; 42_control.md R161). -/

namespace Sys2Proof

/-! ## The fields of a word -/

@[simp] theorem Dir.toField_ofField (d : BitVec 1) : (Dir.ofField d).toField = d := by revert d; decide

/-- A bound select is decoded from its own bits (R74). -/
theorem BSel.toField_of_ofField {f : BitVec 2} {b : BSel} (h : BSel.ofField f = some b) : b.toField = f := by
  revert f b
  decide

/-- BSEL = 00 alone selects no bound (R74). -/
theorem BSel.ofField_eq_none_iff (f : BitVec 2) : BSel.ofField f = none ↔ f = 0 := by revert f; decide

@[simp] theorem Instr.dir_ofFields (d : Dir) (b : BSel) : (Instr.ofFields d b).dir = d := by cases d <;> cases b <;> rfl

@[simp] theorem Instr.bsel_ofFields (d : Dir) (b : BSel) : (Instr.ofFields d b).bsel = b := by cases d <;> cases b <;> rfl

/-- A word is its four fields, most significant first (R70). -/
theorem fields_append (c : Byte) : fieldZ1 c ++ fieldDir c ++ fieldZ2 c ++ fieldBSel c = c := by revert c; decide

/-! ## The commands among the words -/

/-- What a word that decodes to a command says of its fields (R73). -/
theorem decode_ok {c : Byte} {i : Instr} (h : decode c = .ok i) :
    fieldZ1 c = 0 ∧ fieldZ2 c = 0 ∧ ∃ b, BSel.ofField (fieldBSel c) = some b ∧ i = Instr.ofFields (Dir.ofField (fieldDir c)) b := by
  unfold decode at h
  split at h
  · cases h
  · next h1 =>
    split at h
    · cases h
    · next h2 =>
      split at h
      · cases h
      · next b hb => exact ⟨not_not.1 h1, not_not.1 h2, b, hb, (Except.ok.inj h).symm⟩

/-- A word that decodes to a command is that command's word (R70, R72). -/
theorem eq_encode_of_decode {c : Byte} {i : Instr} (h : decode c = .ok i) : c = encode i := by
  obtain ⟨h1, h2, b, hb, rfl⟩ := decode_ok h
  calc c = fieldZ1 c ++ fieldDir c ++ fieldZ2 c ++ fieldBSel c := (fields_append c).symm
    _ = encode (Instr.ofFields (Dir.ofField (fieldDir c)) b) := by
      rw [encode, Instr.dir_ofFields, Instr.bsel_ofFields, Dir.toField_ofField, BSel.toField_of_ofField hb, h1, h2]

/-- The decoder answers a command exactly on its word (R70, R72). -/
theorem decode_ok_iff (c : Byte) (i : Instr) : decode c = .ok i ↔ c = encode i :=
  ⟨eq_encode_of_decode, fun h => h ▸ Machine.decode_encode i⟩

/-- The law of legal words: Z1 and Z2 are zero and BSEL selects a bound (R73). -/
theorem exists_decode_ok_iff_fields (c : Byte) :
    (∃ i, decode c = .ok i) ↔ fieldZ1 c = 0 ∧ fieldZ2 c = 0 ∧ fieldBSel c ≠ 0 := by
  constructor
  · rintro ⟨i, h⟩
    obtain ⟨h1, h2, b, hb, _⟩ := decode_ok h
    exact ⟨h1, h2, fun h0 => by simp [(BSel.ofField_eq_none_iff _).2 h0] at hb⟩
  · rintro ⟨h1, h2, h0⟩
    obtain ⟨b, hb⟩ := Option.ne_none_iff_exists'.1 (mt (BSel.ofField_eq_none_iff _).1 h0)
    exact ⟨Instr.ofFields (Dir.ofField (fieldDir c)) b, by simp [decode, h1, h2, hb]⟩

/-- The legal words are the six of the command table (R72, R73). -/
theorem exists_decode_ok_iff_mem (c : Byte) :
    (∃ i, decode c = .ok i) ↔ c ∈ ([0x01, 0x02, 0x03, 0x11, 0x12, 0x13] : List Byte) := by
  have htable : [0x01, 0x02, 0x03, 0x11, 0x12, 0x13] = [Instr.enc, .encu, .enc32, .dec, .decu, .dec32].map encode := by decide
  have hall (i : Instr) : i ∈ [Instr.enc, .encu, .enc32, .dec, .decu, .dec32] := by cases i <;> decide
  rw [htable, List.mem_map]
  simp only [decode_ok_iff]
  exact ⟨fun ⟨i, hi⟩ => ⟨i, hall i, hi.symm⟩, fun ⟨i, _, hi⟩ => ⟨i, hi.symm⟩⟩

/-- Settles O1. -/
theorem commandWordTable : Obligations.CommandWordTable :=
  ⟨by decide, fun c i h => (exists_decode_ok_iff_mem c).1 ⟨i, h⟩⟩

/-- Settles O2. -/
theorem decodeInvertsEncode : Obligations.DecodeInvertsEncode :=
  ⟨fun i => ⟨by cases i <;> rfl, Machine.decode_encode i⟩, fun _ _ => eq_encode_of_decode⟩

/-! ## The words that are no command -/

/-- A table word of 8 bits is a command exactly where its word is (R71). -/
theorem decodeTableWord_isSome_iff (w : Nat) : (decodeTableWord 8 w).isSome = true ↔ ∃ i, decode (BitVec.ofNat 8 w) = .ok i := by
  have hword : BitVec.ofNat 8 (w % 2 ^ 8) = BitVec.ofNat 8 w := BitVec.eq_of_toNat_eq (by simp)
  rw [decodeTableWord, hword]
  cases decode (BitVec.ofNat 8 w) <;> simp

/-- The commands among the 256 words are the six of the command table, each once (R72). -/
theorem filter_legal_words_perm :
    ((List.range 256).filter fun w => (decodeTableWord 8 w).isSome).Perm
      (([0x01, 0x02, 0x03, 0x11, 0x12, 0x13] : List Byte).map BitVec.toNat) := by
  refine (List.perm_ext_iff_of_nodup (List.nodup_range.filter _) (by decide)).2 fun w => ?_
  rw [List.mem_filter, List.mem_range, decodeTableWord_isSome_iff, exists_decode_ok_iff_mem, List.mem_map]
  constructor
  · rintro ⟨hlt, hmem⟩
    exact ⟨_, hmem, by rw [BitVec.toNat_ofNat, Nat.mod_eq_of_lt hlt]⟩
  · rintro ⟨c, hmem, rfl⟩
    exact ⟨c.isLt, by rwa [BitVec.ofNat_toNat, BitVec.setWidth_eq]⟩

/-- 250 of the 256 words are no command (R73). -/
theorem length_filter_illegal_words : ((List.range 256).filter fun w => (decodeTableWord 8 w).isNone).length = 250 := by
  have hsplit := List.length_eq_length_filter_add (l := List.range 256) fun w => (decodeTableWord 8 w).isSome
  have hlegal := filter_legal_words_perm.length_eq
  simp only [Option.not_isSome, List.length_range, List.length_map, List.length_cons, List.length_nil] at hsplit hlegal
  omega

/-- A word that is no command ends at its issue with ILLEGAL_CMD, while not BUSY (R161). -/
theorem Machine.hostWrite_cmd_of_illegal {c : Byte} {s : Machine.State} (hc : ¬ ∃ i, decode c = .ok i) (hb : s.uvc.state ≠ .busy) :
    Machine.hostWrite (.cmd c) s = .next { s with uvc := Machine.raiseBadArgument .illegalCmd s.uvc } := by
  cases hd : decode c with
  | ok i => exact absurd ⟨i, hd⟩ hc
  | error e => simp only [Machine.hostWrite, Machine.writeCommand, hd, Machine.State.hostStore_free _ hb]

/-- Settles O3. -/
theorem legalWordFieldLaw : Obligations.LegalWordFieldLaw :=
  ⟨exists_decode_ok_iff_fields, exists_decode_ok_iff_mem, length_filter_illegal_words,
    fun _ _ hc hb => ⟨_, Machine.hostWrite_cmd_of_illegal hc hb, rfl, rfl⟩⟩

end Sys2Proof
end

