-- ==== Sys2Proof/Proofs/BoundAndPoll.lean ====
section
/-! Proof of O4 and O13: the bound operand that an issue writes to BUD, and the read of STATUS that a poll repeats
(30_encoding.md R75, R81; 42_control.md R160, R166; log 11). -/

namespace Sys2Proof.Machine

/-! ## The bound operand -/

/-- MAX as read, in arithmetic: UNB in bit 31 above LIMIT (R27, R166). -/
theorem maxWord_toNat (m : MaxReg) : (maxWord m).toNat = (if m.unb = true then 2 ^ 31 else 0) + m.limit.toNat := by
  have hlimit : m.limit.toNat < 2 ^ 31 := m.limit.isLt.trans (by decide)
  have hword : m.limit.toNat % 4294967296 = m.limit.toNat := Nat.mod_eq_of_lt (by omega)
  cases hu : m.unb with
  | false => simpa [maxWord, hu] using hword
  | true => simpa [maxWord, hu, hword] using (Nat.two_pow_add_eq_or_of_lt hlimit 1).symm

/-- MAX reads as 0 exactly where it holds the finite bound 0. -/
theorem maxWord_eq_zero_iff (m : MaxReg) : maxWord m = 0 ↔ m.unb = false ∧ m.limit = 0 := by
  rw [← BitVec.toNat_inj, maxWord_toNat, ← BitVec.toNat_inj]
  cases m.unb <;> simp

/-- MAXREG takes the bound from MAX (R75). -/
theorem boundOf_maxReg_eq_fin_iff (m : MaxReg) (k : Half) : boundOf .maxReg m = .fin k ↔ m.unb = false ∧ m.limit = k := by
  cases hu : m.unb <;> simp [boundOf, hu]

/-- The bound 0 comes only from MAXREG with MAX = 0 (R75). -/
theorem boundOf_eq_fin_zero_iff (b : BSel) (m : MaxReg) : boundOf b m = .fin 0 ↔ b = .maxReg ∧ maxWord m = 0 := by
  rw [maxWord_eq_zero_iff]
  cases b with
  | maxReg => simp [boundOf_maxReg_eq_fin_iff]
  | unbounded => simp [boundOf]
  | fixed5 => simp [boundOf, Config.fixedMax]

/-- The issue of a command, while not BUSY and within the input-length contract, starts it (R160, R162). -/
theorem exec_starts {i : Instr} {s : State} (hb : s.uvc.state ≠ .busy) (hlen : i.dir = .decode → s.uvc.inLen.toNat ≤ s.params.ibufDepth) :
    exec i s = .next { s with uvc := startCommand i.dir i.bsel s.uvc } := by
  rw [exec_eq, State.hostStore_free _ hb, issue_start _ hlen]

/-- Settles O4. -/
theorem boundOperandReachesBudget : Obligations.BoundOperandReachesBudget :=
  ⟨fun _ => ⟨rfl, rfl, rfl⟩, fun _ _ hb hlen => ⟨_, exec_starts hb hlen, startCommand_bud ..⟩, boundOf_eq_fin_zero_iff⟩

/-! ## The poll -/

/-- A read of STATUS gives the value of STATE to the host (R24, R166). -/
theorem hostRead_status (s : State) :
    hostRead .status s = .next { s with readBack := (.status, (statusWord s.uvc.state).toNat) :: s.readBack } := rfl

/-- STATUS reads 1 exactly while BUSY (R24). -/
theorem statusWord_toNat_eq_one_iff (c : CmdState) : (statusWord c).toNat = 1 ↔ c = .busy := by cases c <;> decide

/-- Settles O13: a poll is a read of STATUS, pending again while BUSY. -/
theorem pollRepeatsWhileBusy : Obligations.PollRepeatsWhileBusy := by
  refine fun s => ⟨fun hb => ?_, fun hb => ⟨_, mt (statusWord_toNat_eq_one_iff _).1 hb, ?_⟩⟩
  · rw [runEvent, if_pos hb, hostRead_status, (statusWord_toNat_eq_one_iff _).2 hb]
  · rw [runEvent, if_neg hb, hostRead_status]

end Sys2Proof.Machine
end

