-- ==== Sys2Proof/Proofs/EncBytes.lean ====
section
/-! Proof of O26, O27 and O30: the last k bytes of EncBytes(V) are the packed groups k - 1 down to 0. Their value is V mod 2^(7k), and they
are what the document's loop has prepended after k passes (40_encoder.md R100 to R105, R112, R113; 30_encoding.md R77). -/

namespace Sys2Proof.Machine

/-! ## The count of bytes -/

/-- The count of R101 is the least number of groups that hold the value. -/
theorem nbytes_le_iff {v n : Nat} (hn : 1 ≤ n) : nbytes v ≤ n ↔ v < 2 ^ (7 * n) :=
  ⟨fun h => (lt_pow_nbytes v).trans_le (Nat.pow_le_pow_right two_pos (by omega)), nbytes_le_of_lt hn⟩

/-- A positive value needs its highest group (R101). -/
theorem pow_nbytes_pred_le {v : Nat} (hv : 1 ≤ v) : 2 ^ (7 * (nbytes v - 1)) ≤ v := by
  have hpos := nbytes_pos v
  by_contra! hlt
  obtain hone | hmore := hpos.eq_or_lt
  · rw [← hone] at hlt
    exact absurd hlt (by simpa using Nat.one_le_iff_ne_zero.1 hv)
  · have := nbytes_le_of_lt (by omega) hlt
    omega

/-- The highest group of a positive value is nonzero (R113). -/
theorem group_nbytes_pred_ne_zero {v : Nat} (hv : 1 ≤ v) : group v (nbytes v - 1) ≠ 0 := by
  have hle := pow_nbytes_pred_le hv
  have hlt := lt_pow_nbytes v
  rw [show 7 * nbytes v = 7 * (nbytes v - 1) + 7 by have := nbytes_pos v; omega, Nat.pow_add] at hlt
  have hquot : 1 ≤ v / 2 ^ (7 * (nbytes v - 1)) := Nat.div_pos hle (by positivity)
  have hgroup : (group v (nbytes v - 1)).toNat = v / 2 ^ (7 * (nbytes v - 1)) := by
    rw [group_toNat, Nat.mod_eq_of_lt (Nat.div_lt_of_lt_mul hlt)]
  intro h0
  rw [h0] at hgroup
  exact absurd hgroup (by simpa using Nat.ne_of_lt hquot)

/-! ## The last bytes of an encoding -/

/-- One more of the last bytes of EncBytes(V) is the next group up, which continues unless it is the last byte of all (R102, R104). -/
theorem rtake_encBytes_succ {v k : Nat} (hk : k < nbytes v) :
    (encBytes v).rtake (k + 1) = pack (!((encBytes v).rtake k).isEmpty) (group v k) :: (encBytes v).rtake k := by
  have hcont : cont (nbytes v - (k + 1)) (nbytes v) = !((encBytes v).rtake k).isEmpty := by
    rw [Bool.eq_iff_iff]
    simp only [cont, List.rtake, encBytes_length, decide_eq_true_eq, Bool.not_eq_eq_eq_not, Bool.not_true, List.isEmpty_eq_false_iff,
      ne_eq, List.drop_eq_nil_iff]
    omega
  have hbyte := encBytes_getElem? (v := v) (i := nbytes v - (k + 1)) (by omega)
  rw [show nbytes v - 1 - (nbytes v - (k + 1)) = k by omega, hcont] at hbyte
  obtain ⟨hlt, hget⟩ := List.getElem?_eq_some_iff.1 hbyte
  rw [List.rtake, encBytes_length, List.drop_eq_getElem_cons hlt, hget, List.rtake, encBytes_length]
  congr 2
  omega

@[simp] theorem rtake_encBytes_nbytes (v : Nat) : (encBytes v).rtake (nbytes v) = encBytes v := by simp [List.rtake]

theorem length_rtake_encBytes {v k : Nat} (hk : k ≤ nbytes v) : ((encBytes v).rtake k).length = k := by
  rw [List.rtake, List.length_drop, encBytes_length]
  omega

/-- The last k bytes have the value of the last k groups (R77, R100). -/
theorem uintvarVal_rtake_encBytes {v k : Nat} (hk : k ≤ nbytes v) : uintvarVal ((encBytes v).rtake k) = v % 2 ^ (7 * k) := by
  induction k with
  | zero => simp [uintvarVal, Nat.mod_one]
  | succ k ih =>
    rw [rtake_encBytes_succ hk, uintvarVal, dataGroup_pack, length_rtake_encBytes (by omega), ih (by omega), group_toNat,
      Nat.shiftLeft_eq, show 7 * (k + 1) = 7 * k + 7 by ring, Nat.pow_add, Nat.mod_mul]
    ring

/-- Any last bytes of an encoding are a uintvar (R77, R102). -/
theorem wellFormedUintvar_rtake_encBytes {v k : Nat} (hk : k < nbytes v) :
    wellFormedUintvar ((encBytes v).rtake (k + 1)) = true := by
  induction k with
  | zero => simp [rtake_encBytes_succ hk, wellFormedUintvar, contBit_pack]
  | succ k ih =>
    have hne : (encBytes v).rtake (k + 1) ≠ [] := by
      rw [rtake_encBytes_succ (by omega)]
      simp
    rw [rtake_encBytes_succ hk, wellFormedUintvar_cons_iff]
    exact .inr ⟨by simpa [contBit_pack] using hne, ih (by omega)⟩

/-- EncBytes(V) has the value V (R104). -/
theorem uintvarVal_encBytes (v : Nat) : uintvarVal (encBytes v) = v := by
  rw [← rtake_encBytes_nbytes, uintvarVal_rtake_encBytes le_rfl, Nat.mod_eq_of_lt (lt_pow_nbytes v)]

/-- EncBytes(V) is a well-formed uintvar (R104). -/
theorem wellFormedUintvar_encBytes (v : Nat) : wellFormedUintvar (encBytes v) = true := by
  obtain ⟨k, hk⟩ := Nat.exists_eq_add_one.2 (nbytes_pos v)
  rw [← rtake_encBytes_nbytes, hk]
  exact wellFormedUintvar_rtake_encBytes (by omega)

/-- Settles O26. -/
theorem encBytesDenoteTheValue : Obligations.EncBytesDenoteTheValue :=
  fun v => ⟨encBytes_length v, fun _ => encBytes_getElem?, wellFormedUintvar_encBytes v, uintvarVal_encBytes v⟩

/-! ## Minimality -/

/-- n bytes carry at most 7 n bits (R77). -/
theorem uintvarVal_lt (l : List Byte) : uintvarVal l < 2 ^ (7 * l.length) := by
  induction l with
  | nil => simp [uintvarVal]
  | cons b l ih =>
    have hb := dataGroup_lt b
    rw [uintvarVal, Nat.shiftLeft_eq, List.length_cons, show 7 * (l.length + 1) = 7 * l.length + 7 by ring, Nat.pow_add]
    nlinarith

/-- The first byte of the encoding of a positive value carries a nonzero group (R113). -/
theorem exists_head_encBytes {v : Nat} (hv : 1 ≤ v) :
    ∃ b : Byte, (encBytes v)[0]? = some b ∧ dataGroup b ≠ 0 ∧ b ≠ 0x80 := by
  refine ⟨_, encBytes_getElem? (nbytes_pos v), ?_⟩
  have hgroup : dataGroup (pack (cont 0 (nbytes v)) (group v (nbytes v - 1 - 0))) ≠ 0 := by
    rw [dataGroup_pack]
    exact group_nbytes_pred_ne_zero hv
  exact ⟨hgroup, fun h => hgroup (h ▸ by decide)⟩

/-- Settles O27: no uintvar is shorter, since n bytes carry at most 7 n bits. -/
theorem encodingIsMinimal : Obligations.EncodingIsMinimal := by
  refine ⟨fun v n hn => nbytes_le_iff hn, fun l hl => ?_, fun v hv h => ?_⟩
  · have hpos : 1 ≤ l.length := List.length_pos_iff.2 fun hnil => by simp [hnil, wellFormedUintvar] at hl
    exact nbytes_le_of_lt hpos (uintvarVal_lt l)
  · obtain ⟨b, hb, _, hne⟩ := exists_head_encBytes hv
    exact hne (Option.some.inj (hb.symm.trans h))

/-! ## The document's loop -/

/-- A bound that refuses a count refuses every larger one (R105). -/
theorem exceedsBound_mono {b : Bound} {m n : Nat} (hmn : m ≤ n) (h : exceedsBound b m = true) : exceedsBound b n = true := by
  cases b with
  | unb => exact h
  | fin k => exact (exceedsBound_fin k n).2 (((exceedsBound_fin k m).1 h).trans_le hmn)

/-- With k of its bytes prepended and the value shifted by k groups, the loop goes on to EncodeFn's answer (R112). -/
theorem documentLoop_eq_encodeFn {b : Bound} {v : Nat} (fuel : Nat) {k : Nat} (hk : k ≤ nbytes v) (hfuel : nbytes v ≤ k + fuel)
    (hbound : exceedsBound b k = false) :
    documentLoop b fuel (v >>> (7 * k)) ((encBytes v).rtake k) = encodeFn b v := by
  induction fuel generalizing k with
  | zero =>
    obtain rfl : k = nbytes v := by omega
    simp [documentLoop, encodeFn, hbound]
  | succ fuel ih =>
    have hdone : v >>> (7 * k) = 0 ∧ (encBytes v).rtake k ≠ [] ↔ k = nbytes v := by
      rw [← List.length_pos_iff, length_rtake_encBytes hk, Nat.shiftRight_eq_div_pow, Nat.div_eq_zero_iff_lt (by positivity)]
      constructor
      · rintro ⟨hlt, hpos⟩
        exact hk.antisymm (nbytes_le_of_lt hpos hlt)
      · rintro rfl
        exact ⟨lt_pow_nbytes v, nbytes_pos v⟩
    rw [documentLoop, length_rtake_encBytes hk]
    obtain rfl | hlt := hk.eq_or_lt
    · rw [if_pos (hdone.2 rfl)]
      simp [encodeFn, hbound]
    · rw [if_neg (mt hdone.1 hlt.ne)]
      split
      · next hover => rw [encodeFn, if_pos (exceedsBound_mono hlt hover)]
      · next hfits =>
        have hgroup : group (v >>> (7 * k)) 0 = group v k := by simp [group]
        rw [hgroup, ← rtake_encBytes_succ hlt, ← Nat.shiftRight_add, ← Nat.mul_succ]
        exact ih hlt (by omega) (by simpa using hfits)

/-- Settles O30: the loop starts with no byte, and one pass for each bit and one more are enough for every group. -/
theorem documentLoopComputesEncodeFn : Obligations.DocumentLoopComputesEncodeFn := by
  intro b v
  have hfuel : nbytes v ≤ 0 + (bitlen v + 1) := by
    unfold nbytes
    omega
  have hnone : exceedsBound b 0 = false := (exceedsBound_eq_false_iff b 0).2 fun _ _ => Nat.zero_le _
  simpa [documentEncode] using documentLoop_eq_encodeFn (bitlen v + 1) (Nat.zero_le _) hfuel hnone

end Sys2Proof.Machine
end

