-- ==== Sys2Proof/Proofs/EncoderSteps.lean ====
section
/-! Proof of O6, O20 and O21: the issue of an encode, and the one step of each of its two phases (40_encoder.md R106 to R110;
42_control.md R160). -/

namespace Sys2Proof.Machine

/-! ## The issue -/

/-- Settles O6: an encode reads no input, so its issue always starts it. -/
theorem encodeCommandsIssue : Obligations.EncodeCommandsIssue := by
  rintro s hb i b (⟨rfl, rfl⟩ | ⟨rfl, rfl⟩ | ⟨rfl, rfl⟩) <;> exact exec_starts hb nofun

/-! ## ENC_SIZE -/

/-- Where the bound refuses the count, ENC_SIZE fails (R106). -/
theorem encSizeStep_of_exceeds {u : Uvc} (h : exceedsBound u.bud (nbytes u.valueIn) = true) :
    encSizeStep u = raiseBadArgument .encBound u := if_pos h

/-- Where the bound admits the count, ENC_SIZE writes it to NB and goes on to the first byte (R106). -/
theorem encSizeStep_of_fits {u : Uvc} (h : exceedsBound u.bud (nbytes u.valueIn) = false) :
    encSizeStep u = { u with nb := nbytes u.valueIn, idx := 0, phase := .encEmit } := if_neg (by simp [h])

/-- Settles O20. -/
theorem encSizeCountsThenChecks : Obligations.EncSizeCountsThenChecks := by
  refine fun p u hp => ⟨fun k hk hlt => ?_, fun hfits => ?_⟩ <;> rw [seqStep_encSize p hp]
  · rw [encSizeStep_of_exceeds (hk ▸ (exceedsBound_fin k _).2 hlt)]
    rfl
  · rw [encSizeStep_of_fits]
    · rfl
    · obtain hk | ⟨k, hk, hle⟩ := hfits
      · rw [hk, exceedsBound_unb]
      · rw [hk]
        exact Bool.eq_false_iff.2 (mt (exceedsBound_fin k _).1 hle.not_gt)

/-! ## ENC_EMIT -/

/-- The byte ENC_EMIT writes, in arithmetic: the continuation bit above the group (R103, R107). -/
theorem emitByte_toNat (u : Uvc) (i : Nat) :
    (emitByte u i).toNat = (if i < u.nb - 1 then 128 else 0) + u.valueIn / 2 ^ (7 * (u.nb - 1 - i)) % 128 := by
  rw [toNat_eq_contBit_add_dataGroup, emitByte, contBit_pack, dataGroup_pack, group_toNat]
  simp [cont]

/-- Settles O21. -/
theorem encEmitWritesOneByte : Obligations.EncEmitWritesOneByte := by
  rintro p u i - hp rfl hlt hdepth
  refine ⟨Memory.write u.outBuf u.idx (emitByte u u.idx), emitByte u u.idx, outLenOf u.nb, emitByte_toNat u u.idx,
    Memory.read_write_same .., fun k hk => Memory.read_write_other _ _ hk, outLenOf_toNat, ?_⟩
  rw [seqStep_encEmit p hp]
  obtain ⟨hn, he⟩ | ⟨hn, he⟩ := encEmitStep_cases (hlt.trans_le hdepth)
  · rw [he, if_neg hn]
  · rw [he, if_pos hn]

end Sys2Proof.Machine
end

