-- ==== Sys2Proof/Proofs/EncoderRun.lean ====
section
/-! Proof of O37, O38 and O39: an encode from its issue to its end. After the count has passed the bound, each ENC_EMIT step keeps
OUT split at IDX into the new encoding below and the old bytes from there on, until the last byte completes the command
(40_encoder.md R105 to R111). -/

namespace Sys2Proof.Machine

/-! ## Runs to an end -/

/-- A command that has ended completes in 0 steps. -/
theorem CompletesAfter.zero (p : Params) {u : Uvc} (h : u.state ≠ .busy) : CompletesAfter p 0 u u :=
  ⟨rfl, h, by simp⟩

/-- One step more before a run that completes. -/
theorem CompletesAfter.cons {p : Params} {k : Nat} {u v w : Uvc} (hb : u.state = .busy) (hs : seqStep p u = .ok w)
    (h : CompletesAfter p k w v) : CompletesAfter p (k + 1) u v := by
  obtain ⟨hrun, hend, hbusy⟩ := h
  refine ⟨(seqRun_succ k hs).trans hrun, hend, fun j hj => ?_⟩
  cases j with
  | zero => exact ⟨u, rfl, hb⟩
  | succ j =>
    obtain ⟨m, hm, hmb⟩ := hbusy j (by omega)
    exact ⟨m, (seqRun_succ j hs).trans hm, hmb⟩

/-- No run that completes is shorter than another, since the command is in progress at every step before its end. -/
theorem CompletesAfter.le {p : Params} {m n : Nat} {u v w : Uvc} (hm : CompletesAfter p m u v) (hn : CompletesAfter p n u w) : n ≤ m := by
  obtain ⟨hrun, hend, _⟩ := hm
  by_contra! hlt
  obtain ⟨x, hx, hb⟩ := hn.2.2 m hlt
  obtain rfl : v = x := Except.ok.inj (hrun.symm.trans hx)
  exact hend hb

/-- A command has one end. -/
theorem CompletesAfter.unique {p : Params} {m n : Nat} {u v w : Uvc} (hm : CompletesAfter p m u v) (hn : CompletesAfter p n u w) : v = w := by
  obtain rfl : m = n := (hn.le hm).antisymm (hm.le hn)
  exact Except.ok.inj (hm.1.symm.trans hn.1)

/-! ## The bytes of an encode -/

/-- The encode issued in `s` has written the bytes below IDX, and has bytes to write (R107, R211). -/
structure Emitting (s u : Uvc) : Prop where
  phase : u.phase = .encEmit
  busy : u.state = .busy
  cause : u.cause = .none
  nb : u.nb = nbytes s.valueIn
  valueOut : u.valueOut = 0
  consumed : u.consumed = 0
  operands : OperandsKept s u
  outBuf : ∀ j, Memory.read u.outBuf j = if j < u.idx then (encBytes s.valueIn)[j]? else Memory.read s.outBuf j

/-- The byte ENC_EMIT writes at IDX is the next one of the encoding (R104, R107). -/
theorem Emitting.outBuf_write {s u : Uvc} (h : Emitting s u) (hlt : u.idx < nbytes s.valueIn) (j : Nat) :
    Memory.read (Memory.write u.outBuf u.idx (emitByte u u.idx)) j =
      if j < u.idx + 1 then (encBytes s.valueIn)[j]? else Memory.read s.outBuf j := by
  obtain ⟨hval, _, _, _⟩ := h.operands
  have hbyte : (encBytes s.valueIn)[u.idx]? = some (emitByte u u.idx) := by
    rw [encBytes_getElem? hlt, emitByte, h.nb, hval]
  rw [Memory.read_write, h.outBuf]
  obtain hj | rfl | hj := lt_trichotomy j u.idx
  · rw [if_neg hj.ne, if_pos hj, if_pos (by omega)]
  · rw [if_pos rfl, if_pos (by omega), hbyte]
  · rw [if_neg hj.ne', if_neg (by omega), if_neg (by omega)]

/-- An ENC_EMIT step before the last one writes a byte and goes on (R107). -/
theorem Emitting.step {p : Params} {s u : Uvc} (h : Emitting s u) (hlt : u.idx + 1 < nbytes s.valueIn)
    (hdepth : nbytes s.valueIn ≤ p.obufDepth) : ∃ w, seqStep p u = .ok w ∧ w.idx = u.idx + 1 ∧ Emitting s w := by
  obtain ⟨_, he⟩ | ⟨hn, _⟩ := encEmitStep_cases (p := p) (u := u) (by omega)
  · exact ⟨_, (seqStep_encEmit p h.phase).trans he, rfl, { h with outBuf := h.outBuf_write (by omega) }⟩
  · have := h.nb
    omega

/-- The last ENC_EMIT step completes the encode (R107, R108). -/
theorem Emitting.finish {p : Params} {s u : Uvc} (h : Emitting s u) (hlast : u.idx + 1 = nbytes s.valueIn)
    (hdepth : nbytes s.valueIn ≤ p.obufDepth) : ∃ v, seqStep p u = .ok v ∧ EncodedAs s v ∧ OperandsKept s v := by
  have hout := h.outBuf_write (by omega)
  obtain ⟨hn, _⟩ | ⟨_, he⟩ := encEmitStep_cases (p := p) (u := u) (by omega)
  · exact absurd (hlast.trans h.nb.symm) hn
  · refine ⟨_, (seqStep_encEmit p h.phase).trans he, ?_, h.operands⟩
    refine ⟨rfl, h.cause, rfl, fun hfits => h.nb ▸ outLenOf_toNat (h.nb ▸ hfits), h.valueOut, h.consumed, fun j hj => ?_, fun j hj => ?_⟩
    · rw [encBytes_length] at hj
      exact (hout j).trans (if_pos (by omega))
    · exact (hout j).trans (if_neg (by omega))

/-- With `r + 1` bytes to write, an encode completes in `r + 1` steps (R108). -/
theorem Emitting.completes {p : Params} {s u : Uvc} (r : Nat) (h : Emitting s u) (hr : u.idx + (r + 1) = nbytes s.valueIn)
    (hdepth : nbytes s.valueIn ≤ p.obufDepth) : ∃ v, CompletesAfter p (r + 1) u v ∧ EncodedAs s v ∧ OperandsKept s v := by
  induction r generalizing u with
  | zero =>
    obtain ⟨v, hs, hv, hk⟩ := h.finish hr hdepth
    exact ⟨v, .cons h.busy hs (.zero p (by simp [hv.1])), hv, hk⟩
  | succ r ih =>
    obtain ⟨w, hs, hidx, hw⟩ := h.step (by omega) hdepth
    obtain ⟨v, hc, hv, hk⟩ := ih hw (by omega)
    exact ⟨v, .cons h.busy hs hc, hv, hk⟩

/-! ## An encode from its issue to its end -/

/-- Where the bound admits the count, a started encode completes with the encoding, ENC_SIZE taking one step and each byte one (R108). -/
theorem startCommand_encode_completes {p : Params} (b : BSel) {u : Uvc} (hfits : exceedsBound (boundOf b u.maxReg) (nbytes u.valueIn) = false)
    (hdepth : nbytes u.valueIn ≤ p.obufDepth) :
    ∃ v, CompletesAfter p (1 + nbytes u.valueIn) (startCommand .encode b u) v ∧ EncodedAs u v ∧ OperandsKept u v := by
  have hsize := (seqStep_encSize p (u := startCommand .encode b u) rfl).trans (congrArg Except.ok (encSizeStep_of_fits hfits))
  obtain ⟨r, hr⟩ := Nat.exists_eq_add_one.2 (nbytes_pos u.valueIn)
  obtain ⟨v, hc, hv, hk⟩ := Emitting.completes (p := p) (s := u)
    (u := { startCommand .encode b u with nb := nbytes u.valueIn, idx := 0, phase := .encEmit })
    r ⟨rfl, rfl, rfl, rfl, rfl, rfl, ⟨rfl, rfl, rfl, rfl⟩, by simp⟩ (by simp [hr]) hdepth
  rw [Nat.add_comm, hr]
  exact ⟨v, .cons rfl hsize hc, hv, hk⟩

/-- Where the bound refuses the count, a started encode fails in its first step (R106, R108). -/
theorem startCommand_encode_fails (p : Params) (b : BSel) {u : Uvc} (hover : exceedsBound (boundOf b u.maxReg) (nbytes u.valueIn) = true) :
    ∃ v, CompletesAfter p 1 (startCommand .encode b u) v ∧ FailedWith u v .encBound ∧ OperandsKept u v := by
  have hsize := (seqStep_encSize p (u := startCommand .encode b u) rfl).trans (congrArg Except.ok (encSizeStep_of_exceeds hover))
  exact ⟨_, .cons rfl hsize (.zero p (by simp)), ⟨rfl, rfl, rfl, rfl, rfl, rfl, rfl⟩, rfl, rfl, rfl, rfl⟩

/-- An encode command issued while not BUSY ends in one of two ways, by its bound and its count of bytes (R108 to R111). -/
theorem exec_encode_completes {i : Instr} (hi : i.dir = .encode) {s : State} (hwf : s.params.wf = true)
    (hval : s.uvc.valueIn < 2 ^ s.params.w) (hb : s.uvc.state ≠ .busy) :
    ∃ t v, exec i s = .next t ∧ OperandsKept s.uvc v ∧
      (exceedsBound (boundOf i.bsel s.uvc.maxReg) (nbytes s.uvc.valueIn) = false →
        CompletesAfter s.params (1 + nbytes s.uvc.valueIn) t.uvc v ∧ EncodedAs s.uvc v) ∧
      (exceedsBound (boundOf i.bsel s.uvc.maxReg) (nbytes s.uvc.valueIn) = true →
        CompletesAfter s.params 1 t.uvc v ∧ FailedWith s.uvc v .encBound) := by
  have hstart := exec_starts (i := i) hb (by simp [hi])
  rw [hi] at hstart
  cases hx : exceedsBound (boundOf i.bsel s.uvc.maxReg) (nbytes s.uvc.valueIn) with
  | false =>
    obtain ⟨v, hc, hv, hk⟩ := startCommand_encode_completes i.bsel hx (Params.nbytes_le_obufDepth hwf hval)
    exact ⟨_, v, hstart, hk, fun _ => ⟨hc, hv⟩, nofun⟩
  | true =>
    obtain ⟨v, hc, hv, hk⟩ := startCommand_encode_fails s.params i.bsel hx
    exact ⟨_, v, hstart, hk, nofun, fun _ => ⟨hc, hv⟩⟩

/-- The bound of ENC admits a count where MAX is unbounded or its limit is no less (R75, R105). -/
theorem exceedsBound_boundOf_maxReg (m : MaxReg) (n : Nat) :
    exceedsBound (boundOf .maxReg m) n = true ↔ m.unb = false ∧ m.limit.toNat < n := by
  cases hu : m.unb <;> simp [boundOf, hu, exceedsBound]

/-- Settles O37. -/
theorem encRunsToItsResult : Obligations.EncRunsToItsResult := by
  intro s hwf hval hb
  obtain ⟨t, v, ht, hk, hok, herr⟩ := exec_encode_completes (i := .enc) rfl hwf hval hb
  refine ⟨t, v, ht, hk, fun hfits => hok ?_, fun hu hlt => herr ((exceedsBound_boundOf_maxReg ..).2 ⟨hu, hlt⟩)⟩
  rw [Bool.eq_false_iff, ne_eq, Instr.bsel, exceedsBound_boundOf_maxReg, not_and_or, not_lt, Bool.not_eq_false]
  exact hfits

/-- Settles O38. -/
theorem encuAlwaysSucceeds : Obligations.EncuAlwaysSucceeds := by
  intro s hwf hval hb
  obtain ⟨t, v, ht, hk, hok, _⟩ := exec_encode_completes (i := .encu) rfl hwf hval hb
  obtain ⟨hc, hv⟩ := hok (exceedsBound_unb _)
  exact ⟨t, v, ht, hc, hv, hk, Params.nbytes_le_obufDepth hwf hval⟩

/-- The bound of ENC32 admits exactly the values below 2^35 (R101, R110). -/
theorem exceedsBound_fixed5 (m : MaxReg) (v : Nat) : exceedsBound (boundOf .fixed5 m) (nbytes v) = true ↔ 2 ^ 35 ≤ v := by
  rw [← not_lt, ← nbytes_le_iff (n := 5) (by decide), not_le]
  exact exceedsBound_fin 5 (nbytes v)

/-- Settles O39. -/
theorem enc32AcceptsBelowTwoToThe35 : Obligations.Enc32AcceptsBelowTwoToThe35 := by
  intro s hwf hval hb
  obtain ⟨t, v, ht, hk, hok, herr⟩ := exec_encode_completes (i := .enc32) rfl hwf hval hb
  refine ⟨t, v, ht, hk, fun hlt => hok ?_, fun hle => herr ((exceedsBound_fixed5 ..).2 hle)⟩
  rw [Bool.eq_false_iff, ne_eq, Instr.bsel, exceedsBound_fixed5, not_le]
  exact hlt

end Sys2Proof.Machine
end

