-- ==== Sys2Proof/Proofs/MinimalityAndRanges.lean ====
section
/-! Proof of O60: the values of each length, the limits that let ENC complete, and that the decoder accepts the encodings the encoder
makes within the same bound (40_encoder.md R101, R104, R105, R113; 41_decoder.md R142). -/

namespace Sys2Proof.Machine

/-- The values of n bytes are those that n groups hold and n - 1 groups do not; 0 takes one byte (R101, R113). -/
theorem nbytes_eq_iff_byteRange {n : Nat} (hn : 1 ≤ n) (v : Nat) : nbytes v = n ↔ byteRange n v := by
  have hpos := nbytes_pos v
  have hle := nbytes_le_iff (v := v) hn
  rw [byteRange, ← hle]
  obtain rfl | hn2 := hn.eq_or_lt
  · omega
  · have hpred := nbytes_le_iff (v := v) (n := n - 1) (by omega)
    rw [← not_lt, ← hpred]
    omega

/-- Within every bound the encoder accepts exactly the values whose encodings the decoder accepts (R113, R142). -/
theorem encoderAccepts_iff_decoderAccepts {p : Params} (hwf : p.wf = true) (b : Bound) {v : Nat} (hv : v < 2 ^ p.w) :
    encoderAccepts b v ↔ decoderAccepts p b v := by
  rw [encoderAccepts_iff, exceedsBound_eq_false_iff, decoderAccepts, decodeFnAcceptsExactlyUintvars p b _ _ _ hwf, List.take_length]
  simp [wellFormedUintvar_encBytes, uintvarVal_encBytes, hv]

/-- MAXFIN(k) puts the finite bound k in MAX (R81, R164). -/
theorem maxOfWord_maxFin (k : Half) : maxOfWord (maxFin k) = { limit := k, unb := false } := by
  simp [maxOfWord, maxFin, BitVec.extractLsb'_setWidth_of_le]

/-- ENC with the bound k completes with OK exactly where the encoding has at most k bytes, since a command has one end (R113). -/
theorem exec_enc_ok_iff {s : State} {k : Half} (hwf : s.params.wf = true) (hval : s.uvc.valueIn < 2 ^ s.params.w)
    (hb : s.uvc.state ≠ .busy) (hmax : s.uvc.maxReg = maxOfWord (maxFin k)) :
    ∃ t, exec .enc s = .next t ∧
      ((∃ n v, CompletesAfter s.params n t.uvc v ∧ v.state = .ok) ↔ nbytes s.uvc.valueIn ≤ k.toNat) := by
  rw [maxOfWord_maxFin] at hmax
  obtain ⟨t, v, ht, -, hok, herr⟩ := encRunsToItsResult s hwf hval hb
  rw [hmax] at hok herr
  refine ⟨t, ht, fun ⟨n, w, hw, hwok⟩ => ?_, fun hle => ?_⟩
  · by_contra! hlt
    obtain ⟨hc, hfailed, _⟩ := herr rfl hlt
    rw [hw.unique hc, hfailed] at hwok
    exact absurd hwok (by decide)
  · obtain ⟨hc, hv, _⟩ := hok (.inr hle)
    exact ⟨_, v, hc, hv⟩

/-- Settles O60. -/
theorem minimalityAndRanges : Obligations.MinimalityAndRanges := by
  refine ⟨fun v => ⟨encBytes_length v, rfl, exists_head_encBytes⟩, fun n v hn => nbytes_eq_iff_byteRange hn v, fun r hr v => ?_,
    fun _ _ => exec_enc_ok_iff, fun _ b _ hwf hv => encoderAccepts_iff_decoderAccepts hwf b hv⟩
  simp only [List.mem_cons, List.not_mem_nil, or_false] at hr
  obtain rfl | rfl | rfl | rfl | rfl := hr <;> (rw [nbytes_eq_iff_byteRange (by decide), byteRange]; dsimp only; omega)

end Sys2Proof.Machine
end

