-- ==== Sys2Proof/Proofs/RoundTrip.lean ====
section
/-! Proof of O31, O34 and O32: what DecodeFn accepts (O33), read for the encoding of a value before any rest, and for over-long input
(30_encoding.md R77; 40_encoder.md R105; 41_decoder.md R141, R142; log 18). -/

namespace Sys2Proof.Machine

/-- EncodeFn gives the encoding of every value whose count of bytes passes the bound (R105). -/
theorem encodeFn_eq_ok_encBytes_iff (b : Bound) (v : Nat) : encodeFn b v = .ok (encBytes v) ↔ exceedsBound b (nbytes v) = false := by
  unfold encodeFn
  cases exceedsBound b (nbytes v) <;> simp

/-- DecodeFn consumes a uintvar at the front of its input, with its value, exactly where its length passes the bound and its value fits
W bits (R77, R135). -/
theorem decodeFn_append_ok_iff {p : Params} (hwf : p.wf = true) (b : Bound) {q : List Byte} (hq : wellFormedUintvar q = true)
    (r : List Byte) : decodeFn p b (q ++ r) = .ok (uintvarVal q, q.length) ↔ uintvarVal q < 2 ^ p.w ∧ exceedsBound b q.length = false := by
  rw [decodeFnAcceptsExactlyUintvars p b _ _ _ hwf, List.take_left, exceedsBound_eq_false_iff]
  simp [hq]

/-- Settles O31: both sides say that the count of bytes of V passes the bound. -/
theorem boundEquivalenceAndRoundTrip : Obligations.BoundEquivalenceAndRoundTrip := by
  intro p b v r hwf hv
  have hdecode := decodeFn_append_ok_iff hwf b (wellFormedUintvar_encBytes v) r
  rw [uintvarVal_encBytes] at hdecode
  rw [hdecode, encodeFn_eq_ok_encBytes_iff, encBytes_length]
  simp [hv]

/-! ## Over-long input -/

/-- Leading 0x80 bytes before a last byte are a uintvar (R77). -/
theorem wellFormedUintvar_overLong (m : Nat) {x : Byte} (hx : contBit x = false) :
    wellFormedUintvar (List.replicate m 0x80 ++ [x]) = true := by
  induction m with
  | zero => simp [wellFormedUintvar, hx]
  | succ m ih =>
    rw [List.replicate_succ, List.cons_append, wellFormedUintvar_cons_iff]
    exact .inr ⟨by decide, ih⟩

/-- Leading 0x80 bytes add nothing to the value (R141). -/
theorem uintvarVal_overLong (m : Nat) (x : Byte) : uintvarVal (List.replicate m 0x80 ++ [x]) = (dataGroup x).toNat := by
  induction m with
  | zero => simp [uintvarVal]
  | succ m ih =>
    rw [List.replicate_succ, List.cons_append, uintvarVal, ih, show dataGroup 0x80 = 0 by decide]
    simp

/-- Settles O34: the data group of the last byte fits W bits in every configuration in range. -/
theorem overLongInputIsAccepted : Obligations.OverLongInputIsAccepted := by
  intro p b m x r hwf hx hbound
  have hw : 7 ≤ p.w := by
    have := (Params.wf_iff p).1 hwf
    omega
  have hfits : (dataGroup x).toNat < 2 ^ p.w := (dataGroup_lt x).trans_le (Nat.pow_le_pow_right (n := 2) two_pos hw)
  have hdecode := decodeFn_append_ok_iff hwf b (wellFormedUintvar_overLong m hx) r
  rw [uintvarVal_overLong, List.append_assoc, List.length_append, List.length_replicate, exceedsBound_eq_false_iff] at hdecode
  exact hdecode.2 ⟨hfits, hbound⟩

/-- Settles O32: the two bytes 0x80 0x00 decode to 0, whose encoding is one byte. -/
theorem overLongListBreaksLiteralEquivalence : Obligations.OverLongListBreaksLiteralEquivalence :=
  ⟨.reference, .unb, 0, [0x80, 0x00], by decide, by decide, by decide,
    fun r => overLongInputIsAccepted .reference .unb 1 0x00 r (by decide) (by decide) nofun⟩

end Sys2Proof.Machine
end

