-- ==== Sys2Proof/Proofs/DecoderSteps.lean ====
section
/-! Proof of O7, O29 and O22: the issue of a decode, the capacity check, and the one step of its phase (41_decoder.md R131 to R140;
42_control.md R160). -/

namespace Sys2Proof.Machine

/-- Settles O7: within the input-length contract the issue of a decode starts it. -/
theorem decodeCommandsIssue : Obligations.DecodeCommandsIssue := by
  rintro s hb hlen i b (⟨rfl, rfl⟩ | ⟨rfl, rfl⟩ | ⟨rfl, rfl⟩) <;> exact exec_starts hb fun _ => hlen

/-! ## The capacity check -/

/-- The capacity check fails exactly where assembling a byte, whichever it is, passes W bits (R134). -/
theorem capacityExceeded_iff {p : Params} (hwf : p.wf = true) (acc : Nat) (b : Byte) :
    capacityExceeded p acc = true ↔ 2 ^ p.w ≤ assemble acc b := by
  rw [← not_lt, assemble_lt_iff hwf, Bool.not_eq_false]

/-- Settles O29. -/
theorem capacityCheckIsExact : Obligations.CapacityCheckIsExact := by
  intro p acc hwf
  have hbyte := capacityExceeded_iff hwf acc
  exact ⟨⟨fun h => ⟨0, (hbyte 0).1 h⟩, fun ⟨b, h⟩ => (hbyte b).2 h⟩, ⟨fun h b => (hbyte b).1 h, fun h => (hbyte 0).2 (h 0)⟩⟩

/-! ## DEC_STEP -/

section
variable {p : Params} {u : Uvc}

/-- With the budget spent, DEC_STEP fails before it looks at the input (R137). -/
theorem seqStep_decStep_of_spent (hp : u.phase = .decStep) (hspent : budgetSpent u.bud = true) :
    seqStep p u = .ok (raiseBadArgument .decBound u) := by
  rw [seqStep_decStep p hp]
  exact if_pos hspent

/-- At the end of the input, DEC_STEP fails before it reads (R137). -/
theorem seqStep_decStep_of_end (hp : u.phase = .decStep) (hspent : budgetSpent u.bud = false) (hidx : u.idx = u.inLen.toNat) :
    seqStep p u = .ok (raiseBadArgument .decTrunc u) := by
  rw [seqStep_decStep p hp]
  simp [decStep, hspent, hidx]

/-- Having read a byte, DEC_STEP checks the capacity and consumes the byte (R137). -/
theorem seqStep_decStep_of_read (hp : u.phase = .decStep) (hspent : budgetSpent u.bud = false) {b : Byte}
    (hread : memRead p u u.idx = .ok b) :
    seqStep p u = .ok (if capacityExceeded p u.acc then raiseBadArgument .decCapacity u else consumeByte u b) := by
  obtain ⟨hlt, _, _⟩ := (memRead_ok_iff ..).1 hread
  rw [seqStep_decStep p hp, decStep, if_neg (by simp [hspent]), if_neg hlt.ne, hread]
  cases hcap : capacityExceeded p u.acc <;> simp

/-- A byte that continues leaves the command in progress (R137). -/
theorem consumeByte_of_cont {b : Byte} (hc : contBit b = true) :
    consumeByte u b = { u with acc := assemble u.acc b, idx := u.idx + 1, bud := decBudget u.bud } := if_pos hc

/-- The last byte completes the command (R137). -/
theorem consumeByte_of_last {b : Byte} (hc : contBit b = false) :
    consumeByte u b = { u with acc := assemble u.acc b, idx := u.idx + 1, valueOut := assemble u.acc b,
                               consumed := BitVec.ofNat 16 (u.idx + 1), state := .ok, phase := .none } := if_neg (by simp [hc])

end

/-- CONSUMED counts every byte within IN_LEN (R31, R137). -/
theorem consumed_toNat {i : Nat} {n : Half} (h : i < n.toNat) : (BitVec.ofNat 16 (i + 1)).toNat = i + 1 := by
  rw [BitVec.toNat_ofNat, Nat.mod_eq_of_lt (by omega)]

/-- Decrementing a budget that is not spent takes one off a finite one (R133). -/
theorem decBudget_cases {b : Bound} (h : b ≠ .fin 0) :
    (b = .unb ∧ decBudget b = .unb) ∨ ∃ k l : Half, b = .fin k ∧ decBudget b = .fin l ∧ l.toNat + 1 = k.toNat := by
  cases b with
  | unb => exact .inl ⟨rfl, rfl⟩
  | fin k =>
    obtain ⟨l, hl, hk⟩ := decBudget_fin (k := k) (by simpa using h)
    exact .inr ⟨k, l, rfl, hl, hk⟩

/-- Settles O22. -/
theorem decStepConsumesOneByte : Obligations.DecStepConsumesOneByte := by
  intro p u hp
  have hunspent : u.bud ≠ .fin 0 → budgetSpent u.bud = false := fun h => Bool.eq_false_iff.2 (mt (budgetSpent_iff _).1 h)
  refine ⟨fun hbud => seqStep_decStep_of_spent hp ((budgetSpent_iff _).2 hbud),
    fun hbud hidx => seqStep_decStep_of_end hp (hunspent hbud) hidx, fun hbud hlt hdepth b hb => ?_⟩
  have hstep := seqStep_decStep_of_read hp (hunspent hbud) ((memRead_ok_iff ..).2 ⟨hlt, hdepth, hb⟩)
  have hfields := toNat_eq_contBit_add_dataGroup b
  refine ⟨fun hcap => ?_, fun hacc hlast => ⟨_, consumed_toNat hlt, ?_⟩, fun hacc hcont => ⟨_, decBudget_cases hbud, ?_⟩⟩
  · rw [hstep, if_pos (by simpa [capacityExceeded] using hcap)]
    rfl
  · have hc : contBit b = false := Bool.eq_false_iff.2 (mt (contBit_iff b).1 hlast.not_ge)
    rw [hstep, (capacityExceeded_eq_false_iff ..).2 hacc, consumeByte_of_last hc, assemble_eq, hfields, hc]
    simp
  · have hc : contBit b = true := (contBit_iff b).2 hcont
    rw [hstep, (capacityExceeded_eq_false_iff ..).2 hacc, consumeByte_of_cont hc, assemble_eq, hfields, hc]
    simp

end Sys2Proof.Machine
end

