-- ==== Sys2Proof/Proofs/DecodeFailures.lean ====
section
/-! Proof of O35: the loop of DecodeFn fails after a run of bytes that all continue, with the cause of the first check that the next pass
fails. After n of them the accumulator has at most 7 n bits, so a bound that W has room for leaves no cause but the bound and the end of
the input (41_decoder.md R131 to R140). -/

namespace Sys2Proof.Machine

/-! ## One pass of the loop -/

/-- With the budget spent the loop fails, whatever the input (R135). -/
theorem decodeLoop_of_spent (p : Params) (acc i : Nat) {bud : Bound} (hspent : budgetSpent bud = true) (l : List Byte) :
    decodeLoop p acc i bud l = .error (.decBound, i) := by
  cases l <;> simp [decodeLoop, hspent]

/-- With budget left the loop fails at the end of the input (R135). -/
theorem decodeLoop_nil_of_unspent (p : Params) (acc i : Nat) {bud : Bound} (hspent : budgetSpent bud = false) :
    decodeLoop p acc i bud [] = .error (.decTrunc, i) := by
  simp [decodeLoop, hspent]

/-- With budget left the loop checks the capacity and assembles the next byte (R135). -/
theorem decodeLoop_cons_of_unspent (p : Params) (acc i : Nat) {bud : Bound} (hspent : budgetSpent bud = false) (b : Byte) (l : List Byte) :
    decodeLoop p acc i bud (b :: l) =
      if capacityExceeded p acc then .error (.decCapacity, i)
      else if contBit b then decodeLoop p (assemble acc b) (i + 1) (decBudget bud) l
      else .ok (assemble acc b, i + 1) := by
  simp [decodeLoop, hspent]

/-! ## The failures of the loop -/

/-- The loop has passed `n` bytes of `l`, which all continue, from the accumulator `acc` within the budget `bud`, and fails the next pass
with the cause `e` (R135, R184). -/
structure FailsAfter (p : Params) (acc : Nat) (bud : Bound) (l : List Byte) (e : Cause) (n : Nat) : Prop where
  le_length : n ≤ l.length
  all_cont : ∀ b ∈ l.take n, contBit b = true
  within : exceedsBound bud n = false
  cause : (e = .decBound ∧ exceedsBound bud (n + 1) = true) ∨
    (exceedsBound bud (n + 1) = false ∧
      ((e = .decTrunc ∧ n = l.length) ∨ (e = .decCapacity ∧ 2 ^ (p.w - 7) ≤ (l.take n).foldl assemble acc)))

theorem exceedsBound_zero (b : Bound) : exceedsBound b 0 = false := (exceedsBound_eq_false_iff b 0).2 fun _ _ => Nat.zero_le _

/-- One byte passed takes one off a budget that is not spent (R133). -/
theorem exceedsBound_decBudget {b : Bound} (h : budgetSpent b = false) (n : Nat) :
    exceedsBound (decBudget b) n = exceedsBound b (n + 1) := by
  rw [Bool.eq_iff_iff, ← not_iff_not, Bool.not_eq_true, Bool.not_eq_true, exceedsBound_succ]
  simp [h]

/-- One more continuing byte before a failure (R135). -/
theorem FailsAfter.cons {p : Params} {acc n : Nat} {bud : Bound} {b : Byte} {l : List Byte} {e : Cause} (hspent : budgetSpent bud = false)
    (hc : contBit b = true) (h : FailsAfter p (assemble acc b) (decBudget bud) l e n) : FailsAfter p acc bud (b :: l) e (n + 1) := by
  obtain ⟨hle, hall, hwithin, hcause⟩ := h
  rw [exceedsBound_decBudget hspent] at hwithin hcause
  exact ⟨by simpa using hle, by simpa [hc] using hall, hwithin, by simpa using hcause⟩

/-- A failure of the first pass (R135). -/
theorem FailsAfter.zero {p : Params} {acc : Nat} {bud : Bound} {l : List Byte} {e : Cause}
    (h : (e = .decBound ∧ budgetSpent bud = true) ∨
      (budgetSpent bud = false ∧ ((e = .decTrunc ∧ l = []) ∨ (e = .decCapacity ∧ capacityExceeded p acc = true)))) :
    FailsAfter p acc bud l e 0 := by
  refine ⟨Nat.zero_le _, by simp, exceedsBound_zero bud, ?_⟩
  simpa [exceedsBound_one, capacityExceeded, eq_comm (a := 0)] using h

/-- Every failure of the loop is one of these, and counts the bytes passed (R135, R143). -/
theorem decodeLoop_error {p : Params} {acc i j : Nat} {bud : Bound} {l : List Byte} {e : Cause}
    (h : decodeLoop p acc i bud l = .error (e, j)) : ∃ n, i + n = j ∧ FailsAfter p acc bud l e n := by
  induction l generalizing acc i bud with
  | nil =>
    cases hspent : budgetSpent bud with
    | true =>
      cases (decodeLoop_of_spent p acc i hspent _).symm.trans h
      exact ⟨0, rfl, .zero (.inl ⟨rfl, hspent⟩)⟩
    | false =>
      cases (decodeLoop_nil_of_unspent p acc i hspent).symm.trans h
      exact ⟨0, rfl, .zero (.inr ⟨hspent, .inl ⟨rfl, rfl⟩⟩)⟩
  | cons b l ih =>
    cases hspent : budgetSpent bud with
    | true =>
      cases (decodeLoop_of_spent p acc i hspent _).symm.trans h
      exact ⟨0, rfl, .zero (.inl ⟨rfl, hspent⟩)⟩
    | false =>
      rw [decodeLoop_cons_of_unspent p acc i hspent] at h
      split at h
      · next hcap =>
        cases h
        exact ⟨0, rfl, .zero (.inr ⟨hspent, .inr ⟨rfl, hcap⟩⟩)⟩
      · split at h
        · next hc =>
          obtain ⟨n, rfl, hn⟩ := ih h
          exact ⟨n + 1, by omega, hn.cons hspent hc⟩
        · cases h

/-- A failure of DecodeFn after j bytes is one of the loop from an empty accumulator (R135, R143). -/
theorem decodeRun_error {p : Params} {b : Bound} {l : List Byte} {e : Cause} {j : Nat} (h : decodeRun p b l = .error (e, j)) :
    FailsAfter p 0 b l e j := by
  obtain ⟨n, hn, hfails⟩ := decodeLoop_error h
  obtain rfl : n = j := by omega
  exact hfails

/-- With no bound no failure is DEC_BOUND (R139). -/
theorem FailsAfter.ne_decBound {p : Params} {acc n : Nat} {l : List Byte} {e : Cause} (h : FailsAfter p acc .unb l e n) :
    e ≠ .decBound := by
  rintro rfl
  obtain ⟨_, hover⟩ | ⟨_, ⟨he, _⟩ | ⟨he, _⟩⟩ := h.cause
  · cases hover
  · cases he
  · cases he

/-! ## A bound that W has room for -/

/-- Where W holds 7 bits for each byte the bound allows, a decode fails with DEC_BOUND after as many bytes as the bound, or with DEC_TRUNC
after fewer, at the end of the input (R140). -/
theorem FailsAfter.cases_of_room {p : Params} {k : Half} {l : List Byte} {e : Cause} {n : Nat} (h : FailsAfter p 0 (.fin k) l e n)
    (hroom : 7 * k.toNat ≤ p.w) : (e = .decBound ∧ n = k.toNat) ∨ (e = .decTrunc ∧ n = l.length ∧ n < k.toNat) := by
  have hwithin := (exceedsBound_eq_false_iff _ _).1 h.within k rfl
  obtain ⟨he, hover⟩ | ⟨hmore, hend⟩ := h.cause
  · exact .inl ⟨he, hwithin.antisymm (Nat.lt_succ_iff.1 ((exceedsBound_fin ..).1 hover))⟩
  · have hlt : n < k.toNat := (exceedsBound_eq_false_iff _ _).1 hmore k rfl
    obtain ⟨he, hn⟩ | ⟨_, hcap⟩ := hend
    · exact .inr ⟨he, hn, hlt⟩
    · have hacc := uintvarVal_lt (l.take n)
      rw [List.length_take_of_le h.le_length, ← foldl_assemble_zero] at hacc
      have := (Nat.pow_lt_pow_iff_right (by decide)).1 (hcap.trans_lt hacc)
      omega

/-- The causes of a bounded decode that W has room for, with the input each needs (R140). -/
theorem decodeFn_error_of_room {p : Params} {k : Half} {l : List Byte} {e : Cause} (hroom : 7 * k.toNat ≤ p.w)
    (h : decodeFn p (.fin k) l = .error e) :
    (e = .decBound ∧ k.toNat ≤ l.length ∧ ∀ b ∈ l.take k.toNat, contBit b = true) ∨
    (e = .decTrunc ∧ l.length < k.toNat ∧ ∀ b ∈ l, contBit b = true) := by
  obtain ⟨j, hj⟩ := (decodeFn_error_iff ..).1 h
  have hfails := decodeRun_error hj
  have hall := hfails.all_cont
  obtain ⟨he, rfl⟩ | ⟨he, rfl, hlt⟩ := hfails.cases_of_room hroom
  · exact .inl ⟨he, hfails.le_length, hall⟩
  · exact .inr ⟨he, hlt, by simpa using hall⟩

/-- Where every byte that the bound allows continues, a decode fails (R77, R135). -/
theorem exists_decodeFn_error_of_all_contBit {p : Params} (hwf : p.wf = true) {k : Half} {l : List Byte}
    (hall : ∀ b ∈ l.take k.toNat, contBit b = true) : ∃ e, decodeFn p (.fin k) l = .error e := by
  cases h : decodeFn p (.fin k) l with
  | error e => exact ⟨e, rfl⟩
  | ok r =>
    obtain ⟨_, hq, _, _, hbound⟩ := (decodeFnAcceptsExactlyUintvars p _ l r.1 r.2 hwf).1 h
    rw [wellFormedUintvar_of_all_contBit fun b hb => hall b ((List.take_prefix_take_left (hbound k rfl)).subset hb)] at hq
    cases hq

/-- A result is a uintvar of at least one byte and at most the bound, and holds 7 bits of each (R77, R140). -/
theorem decodeFn_ok_bounds {p : Params} (hwf : p.wf = true) {k : Half} {l : List Byte} {v c : Nat}
    (h : decodeFn p (.fin k) l = .ok (v, c)) : v < 2 ^ (7 * k.toNat) ∧ 1 ≤ c ∧ c ≤ k.toNat := by
  obtain ⟨hle, hq, rfl, _, hbound⟩ := (decodeFnAcceptsExactlyUintvars p _ l v c hwf).1 h
  have hc := hbound k rfl
  have hval := uintvarVal_lt (l.take c)
  rw [List.length_take_of_le hle] at hval
  refine ⟨hval.trans_le (Nat.pow_le_pow_right two_pos (by omega)), Nat.one_le_iff_ne_zero.2 fun h0 => ?_, hc⟩
  simp [h0, wellFormedUintvar] at hq

/-- Every configuration in range has room for the five bytes of DEC32 (R2, R140). -/
theorem five_bytes_fit {p : Params} (hwf : p.wf = true) : 7 * (5 : Half).toNat ≤ p.w := ((Params.wf_iff p).1 hwf).1

/-- Settles O35: the two causes need inputs that exclude each other, and each such input makes the decode fail. -/
theorem fiveByteDecodeOutcomes : Obligations.FiveByteDecodeOutcomes := by
  intro p l hwf
  have hcases {e : Cause} (h : decodeFn p (.fin 5) l = .error e) := decodeFn_error_of_room (five_bytes_fit hwf) h
  refine ⟨⟨fun h => ?_, fun ⟨hlen, hall⟩ => ?_⟩, ⟨fun h => ?_, fun ⟨hlen, hall⟩ => ?_⟩, fun h => ?_, fun v c h => decodeFn_ok_bounds hwf h⟩
  · obtain ⟨_, hdone⟩ | ⟨he, _⟩ := hcases h
    · exact hdone
    · cases he
  · obtain ⟨e, he⟩ := exists_decodeFn_error_of_all_contBit (k := 5) hwf hall
    obtain ⟨rfl, _⟩ | ⟨_, hlt, _⟩ := hcases he
    · exact he
    · exact absurd hlen hlt.not_ge
  · obtain ⟨he, _⟩ | ⟨_, hdone⟩ := hcases h
    · cases he
    · exact hdone
  · obtain ⟨e, he⟩ := exists_decodeFn_error_of_all_contBit (k := 5) hwf fun b hb => hall b (List.mem_of_mem_take hb)
    obtain ⟨_, hle, _⟩ | ⟨rfl, _⟩ := hcases he
    · exact absurd hlen hle.not_gt
    · exact he
  · obtain ⟨he, _⟩ | ⟨he, _⟩ := hcases h <;> cases he

end Sys2Proof.Machine
end

