-- ==== Sys2Proof/Proofs/DecoderRun.lean ====
section
/-! Proof of O40, O41 and O42: a decode from its issue to its end. Each DEC_STEP step is one pass of the loop of DecodeFn, with ACC, IDX and
BUD as its arguments and the bytes from IDX on as its input (41_decoder.md R135, R137 to R143). -/

namespace Sys2Proof.Machine

/-! ## What a decode's result says of its run -/

/-- The sequencer's steps up to the end of a decode with the result `r`: one for each byte assembled, and one more to fail (R143). -/
def decodeSteps (r : Except (Cause × Nat) (Nat × Nat)) : Nat :=
  match r with
  | .ok (_, c) => c
  | .error (_, j) => j + 1

/-- The bytes of IN that a decode with the result `r` reads. -/
def decodeReads (r : Except (Cause × Nat) (Nat × Nat)) : Nat :=
  match r with
  | .ok (_, c) => c
  | .error (e, j) => bytesReadOnFailure e j

/-- `v` is the end of a decode issued in `u` with the result `r` (R138, R181). -/
def EndsWith (u v : Uvc) (r : Except (Cause × Nat) (Nat × Nat)) : Prop :=
  match r with
  | .ok (x, c) => DecodedAs u v x c
  | .error (e, _) => FailedWith u v e

/-- From the i-th byte on the loop reads no fewer than i bytes (R135). -/
theorem le_decodeReads_decodeLoop (p : Params) (acc i : Nat) (bud : Bound) (l : List Byte) :
    i ≤ decodeReads (decodeLoop p acc i bud l) := by
  induction l generalizing acc i bud with
  | nil => cases hspent : budgetSpent bud <;> simp [decodeLoop, hspent, decodeReads, bytesReadOnFailure]
  | cons b l ih =>
    cases hspent : budgetSpent bud with
    | true => simp [decodeLoop_of_spent p acc i hspent, decodeReads, bytesReadOnFailure]
    | false =>
      rw [decodeLoop_cons_of_unspent p acc i hspent]
      split
      · simp [decodeReads, bytesReadOnFailure]
      · split
        · exact (Nat.le_succ i).trans (ih ..)
        · exact Nat.le_succ i

/-- Where budget and input are left, the loop reads the next byte (R135, R137). -/
theorem lt_decodeReads_decodeLoop (p : Params) (acc i : Nat) {bud : Bound} (hspent : budgetSpent bud = false) (b : Byte) (l : List Byte) :
    i < decodeReads (decodeLoop p acc i bud (b :: l)) := by
  rw [decodeLoop_cons_of_unspent p acc i hspent]
  split
  · simp [decodeReads, bytesReadOnFailure]
  · split
    · exact le_decodeReads_decodeLoop ..
    · exact Nat.lt_succ_self i

/-! ## The bytes of a decode -/

/-- The decode issued in `s` is in progress (R137). -/
structure Decoding (s u : Uvc) : Prop where
  phase : u.phase = .decStep
  busy : u.state = .busy
  cause : u.cause = .none
  outLen : u.outLen = 0
  outBuf : u.outBuf = s.outBuf
  operands : OperandsKept s u

/-- A step that fails ends the decode (R181). -/
theorem Decoding.fails {p : Params} {s u : Uvc} {e : Cause} (h : Decoding s u) (hs : seqStep p u = .ok (raiseBadArgument e u)) :
    ∃ n v, u.idx + n = u.idx + 1 ∧ CompletesAfter p n u v ∧ FailedWith s v e ∧ OperandsKept s v :=
  ⟨1, _, rfl, .cons h.busy hs (.zero p (by simp)), ⟨rfl, rfl, rfl, rfl, rfl, rfl, h.outBuf⟩, h.operands⟩

/-- A byte that continues keeps the decode in progress (R137). -/
theorem Decoding.of_cont {s u : Uvc} {b : Byte} (h : Decoding s u) (hc : contBit b = true) : Decoding s (consumeByte u b) := by
  rw [consumeByte_of_cont hc]
  exact { h with }

/-- The last byte completes the decode with its value and its count of bytes (R137, R138). -/
theorem Decoding.of_last {s u : Uvc} {b : Byte} (h : Decoding s u) (hidx : u.idx < s.inLen.toNat) (hc : contBit b = false) :
    DecodedAs s (consumeByte u b) (assemble u.acc b) (u.idx + 1) ∧ OperandsKept s (consumeByte u b) := by
  rw [consumeByte_of_last hc]
  exact ⟨⟨rfl, h.cause, rfl, rfl, consumed_toNat hidx, h.outLen, h.outBuf⟩, h.operands⟩

/-- A byte written within the input is one that DEC_STEP reads (R51). -/
theorem Decoding.memRead_eq_ok {p : Params} {s u : Uvc} {b : Byte} (h : Decoding s u) (hdepth : s.inLen.toNat ≤ p.ibufDepth)
    (hidx : u.idx < s.inLen.toNat) (hb : Memory.read s.inBuf u.idx = some b) : memRead p u u.idx = .ok b := by
  obtain ⟨_, _, hin, hbuf⟩ := h.operands
  exact (memRead_ok_iff ..).2 ⟨hin ▸ hidx, hin ▸ hdepth, hbuf ▸ hb⟩

/-- The sequencer's run of a decode in progress is the loop's run on the bytes that remain (R135, R143). -/
theorem Decoding.completes {p : Params} {s u : Uvc} {l : List Byte} (h : Decoding s u) (hdepth : s.inLen.toNat ≤ p.ibufDepth)
    (hlen : u.idx + l.length = s.inLen.toNat)
    (hread : ∀ k, u.idx + k < decodeReads (decodeLoop p u.acc u.idx u.bud l) → Memory.read s.inBuf (u.idx + k) = l[k]?) :
    ∃ n v, u.idx + n = decodeSteps (decodeLoop p u.acc u.idx u.bud l) ∧ CompletesAfter p n u v ∧
      EndsWith s v (decodeLoop p u.acc u.idx u.bud l) ∧ OperandsKept s v := by
  induction l generalizing u with
  | nil =>
    cases hspent : budgetSpent u.bud with
    | true =>
      rw [decodeLoop_of_spent p _ _ hspent]
      exact h.fails (seqStep_decStep_of_spent h.phase hspent)
    | false =>
      obtain ⟨_, _, hin, _⟩ := h.operands
      rw [decodeLoop_nil_of_unspent p _ _ hspent]
      exact h.fails (seqStep_decStep_of_end h.phase hspent (hin ▸ hlen))
  | cons b l ih =>
    cases hspent : budgetSpent u.bud with
    | true =>
      rw [decodeLoop_of_spent p _ _ hspent]
      exact h.fails (seqStep_decStep_of_spent h.phase hspent)
    | false =>
      rw [List.length_cons] at hlen
      have hbyte := hread 0 (lt_decodeReads_decodeLoop p u.acc u.idx hspent b l)
      have hstep := seqStep_decStep_of_read h.phase hspent (h.memRead_eq_ok hdepth (by omega) hbyte)
      rw [decodeLoop_cons_of_unspent p _ _ hspent] at hread ⊢
      cases hcap : capacityExceeded p u.acc with
      | true => exact h.fails (by simpa [hcap] using hstep)
      | false =>
        rw [hcap] at hstep hread
        cases hc : contBit b with
        | true =>
          have hnext := h.of_cont hc
          rw [hc] at hread
          rw [consumeByte_of_cont hc] at hstep hnext
          obtain ⟨n, v, hn, hrun, hend, hkept⟩ := ih hnext (by dsimp only; omega) fun k hk => by
            dsimp only at hk ⊢
            rw [Nat.add_assoc, Nat.add_comm 1] at hk ⊢
            exact hread (k + 1) hk
          exact ⟨n + 1, v, (Nat.add_right_comm ..).trans hn, .cons h.busy hstep hrun, hend, hkept⟩
        | false =>
          obtain ⟨hend, hkept⟩ := h.of_last (by omega) hc
          exact ⟨1, _, rfl, .cons h.busy hstep (.zero p (by simp [hend.1])), hend, hkept⟩

/-! ## A decode from its issue to its end -/

/-- A decode command issued within the input-length contract ends as DecodeFn says of its bound and its input, where the bytes it reads
have been written (R138 to R140, R143, R205). -/
theorem exec_decode_completes {i : Instr} (hi : i.dir = .decode) {s : State} {l : List Byte} {r : Except (Cause × Nat) (Nat × Nat)}
    (hb : s.uvc.state ≠ .busy) (hdepth : s.uvc.inLen.toNat ≤ s.params.ibufDepth) (hlen : l.length = s.uvc.inLen.toNat)
    (hr : decodeRun s.params (boundOf i.bsel s.uvc.maxReg) l = r)
    (hread : ∀ k, k < decodeReads r → Memory.read s.uvc.inBuf k = l[k]?) :
    ∃ t v, exec i s = .next t ∧ CompletesAfter s.params (decodeSteps r) t.uvc v ∧ EndsWith s.uvc v r ∧ OperandsKept s.uvc v := by
  have hstart := exec_starts (i := i) hb fun _ => hdepth
  rw [hi] at hstart
  have hdecoding : Decoding s.uvc (startCommand .decode i.bsel s.uvc) := ⟨rfl, rfl, rfl, rfl, rfl, rfl, rfl, rfl, rfl⟩
  obtain rfl := hr
  obtain ⟨n, v, hn, hrun, hend, hkept⟩ := hdecoding.completes (l := l) hdepth (by simp [hlen]) fun k hk => by
    rw [startCommand_idx, Nat.zero_add] at hk ⊢
    exact hread k hk
  rw [startCommand_idx, Nat.zero_add] at hn
  exact ⟨_, v, hstart, hn ▸ hrun, hend, hkept⟩

/-- Settles O40. -/
theorem decRunsToItsResult : Obligations.DecRunsToItsResult := by
  rintro s l _ hb hdepth hlen rfl
  exact ⟨fun _ _ => exec_decode_completes (i := .dec) rfl hb hdepth hlen, fun _ _ => exec_decode_completes (i := .dec) rfl hb hdepth hlen⟩

/-- Settles O41. -/
theorem decuRunsToItsResult : Obligations.DecuRunsToItsResult := by
  intro s l hb hdepth hlen
  exact ⟨fun _ _ => exec_decode_completes (i := .decu) rfl hb hdepth hlen,
    fun _ _ hr hread => ⟨(decodeRun_error hr).ne_decBound, exec_decode_completes (i := .decu) rfl hb hdepth hlen hr hread⟩⟩

/-- Settles O42. -/
theorem dec32RunsToItsResult : Obligations.Dec32RunsToItsResult := by
  intro s l hwf hb hdepth hlen
  refine ⟨fun x c hr hread => ?_, fun e j hr hread => ?_⟩
  · obtain ⟨hval, _, hc⟩ := decodeFn_ok_bounds hwf ((decodeFn_ok_iff ..).2 hr)
    exact ⟨hval, hc, exec_decode_completes (i := .dec32) rfl hb hdepth hlen hr hread⟩
  · have hrun := exec_decode_completes (i := .dec32) rfl hb hdepth hlen hr hread
    obtain ⟨rfl, rfl⟩ | ⟨rfl, _, hlt⟩ := (decodeRun_error hr).cases_of_room (five_bytes_fit hwf)
    · exact ⟨by decide, le_rfl, hrun⟩
    · exact ⟨by decide, hlt.le, hrun⟩

end Sys2Proof.Machine
end

