-- ==== Sys2Proof/Proofs/IssueAndHostAccess.lean ====
section
/-! Proof of O5, O8, O9, O10, O11 and O12: what a host write does to each target, the issue of every word among them, and what a host read
returns (42_control.md R160 to R166; 70_reset_and_hazards.md R203). -/

namespace Sys2Proof.Machine

/-! ## Host writes -/

section
variable {s : State}

/-- While BUSY the gate drops a write to any target (R165). -/
theorem hostWrite_of_busy (w : HostWrite) (hb : s.uvc.state = .busy) : hostWrite w s = .next s := by
  obtain ⟨f, hf, _⟩ := hostWrite_cases w s
  rw [hf, State.hostStore_busy f hb]

/-- While BUSY a command is not issued (R160, R165). -/
theorem exec_of_busy (i : Instr) (hb : s.uvc.state = .busy) : exec i s = .next s := by
  rw [exec_eq, State.hostStore_busy _ hb]

/-- While not BUSY a write to any target but CMD stores its value (R164). -/
theorem hostWrite_of_free {w : HostWrite} (hw : ∀ c, w ≠ .cmd c) (hb : s.uvc.state ≠ .busy) :
    hostWrite w s = .next { s with uvc := storeOperand w s.uvc } := by
  obtain ⟨f, hf, ⟨c, _, hc, _⟩ | ⟨c, _, hc, _⟩ | ⟨_, rfl⟩⟩ := hostWrite_cases w s
  · exact absurd hc (hw c)
  · exact absurd hc (hw c)
  · rw [hf, State.hostStore_free _ hb]

/-- A write of a command's word to CMD, while not BUSY, is the issue of the command (R160). -/
theorem hostWrite_cmd_of_decode {c : Byte} {i : Instr} (hd : decode c = .ok i) (hb : s.uvc.state ≠ .busy) :
    hostWrite (.cmd c) s = .next { s with uvc := issue s.params i.dir i.bsel s.uvc } :=
  (runEvent_write_cmd hd s).trans ((exec_eq i s).trans (by rw [State.hostStore_free _ hb]))

end

/-- Settles O10. -/
theorem writesWhileBusyAreDropped : Obligations.WritesWhileBusyAreDropped :=
  fun _ hb => ⟨fun w => hostWrite_of_busy w hb, fun i => exec_of_busy i hb⟩

/-! ## The write of MAX -/

/-- LIMIT is taken from bits 15:0 of the word (R164). -/
theorem maxOfWord_limit_toNat (v : MaxWord) : (maxOfWord v).limit.toNat = v.toNat % 2 ^ 16 := by
  simp [maxOfWord]

/-- UNB is taken from bit 31 of the word (R164). -/
theorem maxOfWord_unb_iff (v : MaxWord) : (maxOfWord v).unb = true ↔ 2 ^ 31 ≤ v.toNat := by
  rw [maxOfWord, ← BitVec.msb_eq_getLsbD_last (w := 32), BitVec.msb_eq_decide, decide_eq_true_iff]

/-- Settles O11. -/
theorem hostWriteEffects : Obligations.HostWriteEffects := by
  intro s hb
  have hstore (w : HostWrite) (hw : ∀ c, w ≠ .cmd c) := hostWrite_of_free (s := s) hw hb
  refine ⟨fun c i hd => runEvent_write_cmd hd s, fun c hc => ?_, fun v => hstore (.valueIn v) nofun, fun v => ?_,
    fun v => hstore (.inLen v) nofun, fun i v => ?_, fun v => ⟨hstore (.status v) nofun, hstore (.cause v) nofun⟩,
    fun v => hstore (.valueOut v) nofun, fun v => ⟨hstore (.outLen v) nofun, hstore (.consumed v) nofun⟩,
    fun i v => hstore (.outByte i v) nofun⟩
  · exact ⟨_, hostWrite_cmd_of_illegal (not_exists.2 hc) hb, rfl, rfl⟩
  · exact ⟨_, hstore (.max v) nofun, maxOfWord_limit_toNat v, maxOfWord_unb_iff v⟩
  · exact ⟨_, hstore (.inByte i v) nofun, Memory.read_write_same .., fun j hj => Memory.read_write_other _ v hj⟩

/-! ## The issue of every word -/

/-- Bit 4 of a command's word is its direction (R70). -/
theorem encode_getLsbD_four (i : Instr) : (encode i).getLsbD 4 = true ↔ i.dir = .decode := by cases i <;> decide

/-- The phase a command starts in, by bit 4 of its word (R70, R160). -/
theorem startPhase_dir (i : Instr) : startPhase i.dir = if (encode i).getLsbD 4 = true then .decStep else .encSize := by
  cases i <;> rfl

/-- The bound of a command, by bits 1:0 of its word (R70, R74, R75). -/
theorem boundOf_bsel (i : Instr) (m : MaxReg) :
    boundOf i.bsel m = if (encode i).extractLsb' 0 2 = 1 then (if m.unb = true then .unb else .fin m.limit)
      else if (encode i).extractLsb' 0 2 = 2 then .unb else .fin 5 := by
  cases i <;> rfl

/-- Settles O9: the failure clears PHASE. -/
theorem illegalWordEndsAtIssue : Obligations.IllegalWordEndsAtIssue :=
  fun _ c hc hb => ⟨_, hostWrite_cmd_of_illegal (mt (exists_decode_ok_iff_mem c).1 hc) hb, rfl, rfl⟩

/-- Settles O8: an encode does not look at IN_LEN. -/
theorem inputLengthContract : Obligations.InputLengthContract := by
  refine ⟨fun s i hi hb hlen => ?_, fun s i hi hb => ?_⟩
  · have hdir : i.dir = .decode := by obtain rfl | rfl | rfl := hi <;> rfl
    rw [exec_eq, State.hostStore_free _ hb, issue_contract _ hdir hlen]
    rfl
  · have hdir : i.dir ≠ .decode := by obtain rfl | rfl | rfl := hi <;> decide
    exact ⟨_, exec_starts hb fun h => absurd h hdir, rfl, rfl⟩

/-- Settles O5: a word is illegal, or it is a command's word, whose issue breaks the input-length contract or starts the command. -/
theorem issueWritesListedRegisters : Obligations.IssueWritesListedRegisters := by
  refine fun s c => ⟨hostWrite_of_busy _, fun hb => ?_⟩
  by_cases hmem : c ∈ ([0x01, 0x02, 0x03, 0x11, 0x12, 0x13] : List Byte)
  · obtain ⟨i, hd⟩ := (exists_decode_ok_iff_mem c).2 hmem
    rw [if_neg (not_not.2 hmem), hostWrite_cmd_of_decode hd hb]
    obtain rfl := eq_encode_of_decode hd
    obtain ⟨hdir, hlen, he⟩ | ⟨hlen, he⟩ := issue_cases s.params i.dir i.bsel s.uvc
    · rw [he, if_pos ⟨(encode_getLsbD_four i).2 hdir, hlen⟩]
      rfl
    · have hok : ¬ ((encode i).getLsbD 4 = true ∧ s.params.ibufDepth < s.uvc.inLen.toNat) :=
        fun ⟨hdir, hlt⟩ => (hlen ((encode_getLsbD_four i).1 hdir)).not_gt hlt
      rw [he, if_neg hok, startCommand, boundOf_bsel, startPhase_dir]
  · rw [if_pos hmem]
    exact hostWrite_cmd_of_illegal (mt (exists_decode_ok_iff_mem c).1 hmem) hb

/-! ## Host reads -/

section
variable {r : HostRead} {s : State}

/-- A read that has a value gives it to the host and changes nothing else (R58, R166). -/
theorem hostRead_of_ok {v : Nat} (h : readValue r s.uvc = .ok v) : hostRead r s = .next { s with readBack := (r, v) :: s.readBack } := by
  simp [hostRead, h]

/-- A read that has no value stops the machine (R203). -/
theorem hostRead_of_error {f : Fault} (h : readValue r s.uvc = .error f) : hostRead r s = .fault f := by
  simp [hostRead, h]

end

/-- A written byte reads as its value (R166). -/
theorem readByte_of_some (b : Buffer) {m : Memory} {i : Nat} {v : Byte} (h : Memory.read m i = some v) :
    readByte b m i = .ok v.toNat := by
  simp [readByte, h]

/-- An unwritten byte has no value to give (R203). -/
theorem readByte_of_none (b : Buffer) {m : Memory} {i : Nat} (h : Memory.read m i = none) :
    readByte b m i = .error (.unwrittenByte b i) := by
  simp [readByte, h]

/-- Settles O12. -/
theorem hostReadReturnsCurrentValue : Obligations.HostReadReturnsCurrentValue := by
  refine fun s => ⟨fun r v hv => hostRead_of_ok ?_, fun i hi => hostRead_of_error (readByte_of_none .input hi),
    fun i hi => hostRead_of_error (readByte_of_none .output hi)⟩
  obtain ⟨rfl, rfl⟩ | ⟨rfl, rfl⟩ | ⟨rfl, rfl⟩ | ⟨rfl, rfl⟩ | ⟨rfl, rfl⟩ | ⟨rfl, rfl⟩ | ⟨rfl, rfl⟩ | ⟨rfl, rfl⟩ | ⟨rfl, rfl⟩ |
    ⟨i, b, rfl, hb, rfl⟩ | ⟨i, b, rfl, hb, rfl⟩ := hv
  · rfl
  · rw [readValue]
    cases s.uvc.state <;> rfl
  · rw [readValue]
    cases s.uvc.cause <;> rfl
  · rfl
  · rw [readValue, maxWord_toNat]
  · rfl
  · rfl
  · rfl
  · rfl
  · exact readByte_of_some .input hb
  · exact readByte_of_some .output hb

end Sys2Proof.Machine
end

