-- ==== Sys2Proof/Proofs/Progress.lean ====
section
/-! Proof of O19, O51 and O54: the sequencer's turn is the step PHASE names, a host that keeps its duty meets no stop, and with no
command in progress only an issue or a reset changes a result (42_control.md R163, R168, R171; 70_reset_and_hazards.md R203, R205, R210). -/

namespace Sys2Proof.Machine

/-! ## The sequencer's turn -/

section
variable {s : State}

theorem sequencerTurn_of_ok {v : Uvc} (h : seqStep s.params s.uvc = .ok v) : sequencerTurn s = .next { s with uvc := v } := by
  simp [sequencerTurn, h]

theorem sequencerTurn_of_error {f : Fault} (h : seqStep s.params s.uvc = .error f) : sequencerTurn s = .fault f := by
  simp [sequencerTurn, h]

end

theorem sequencerReady_iff (s : State) : s.sequencerReady = true ↔ s.uvc.phase ≠ .none := by simp [State.sequencerReady]

/-- With no event pending, the step is whatever the sequencer's step answers, a fault included (R171). -/
theorem step_of_seqStep {s : State} (he : s.events = []) (hp : s.uvc.phase ≠ .none) {r : Except Fault Uvc}
    (h : seqStep s.params s.uvc = r) :
    (∀ v, r = .ok v → step s = .next { s with uvc := v }) ∧ ∀ f, r = .error f → step s = .fault f := by
  rw [step_of_no_event he hp]
  exact ⟨fun v hv => sequencerTurn_of_ok (h.trans hv), fun f hf => sequencerTurn_of_error (h.trans hf)⟩

/-- Settles O19. -/
theorem phaseSelectsSequencerStep : Obligations.PhaseSelectsSequencerStep := by
  refine fun s => ⟨sequencerReady_iff s, fun he => ⟨step_quiescent he, fun hp => ?_, fun hp r hr => ?_, fun hp r hr => ?_⟩⟩
  · exact (step_of_seqStep he (by simp [hp]) (seqStep_encSize _ hp)).1 _ rfl
  · exact step_of_seqStep he (by simp [hp]) ((seqStep_encEmit _ hp).trans hr)
  · exact step_of_seqStep he (by simp [hp]) ((seqStep_decStep _ hp).trans hr)

/-! ## No stop -/

/-- A decode within the input-length contract whose input has been written has a step (R137, R168). -/
theorem exists_seqStep_decStep {p : Params} {u : Uvc} (h : u.Inv p) (hp : u.phase = .decStep) (hin : u.inputWritten) :
    ∃ v, seqStep p u = .ok v := by
  obtain ⟨hidx, hdepth, _⟩ := h.dec_step hp
  cases hspent : budgetSpent u.bud with
  | true => exact ⟨_, seqStep_decStep_of_spent hp hspent⟩
  | false =>
    obtain hend | hlt := hidx.eq_or_lt
    · exact ⟨_, seqStep_decStep_of_end hp hspent hend⟩
    · obtain ⟨b, hb⟩ := Option.isSome_iff_exists.1 (hin u.idx hlt)
      exact ⟨_, seqStep_decStep_of_read hp hspent ((memRead_ok_iff ..).2 ⟨hlt, hdepth, hb⟩)⟩

/-- An encode has a step, since its bytes fit in OUT (R101, R107). -/
theorem exists_seqStep_encEmit {p : Params} {u : Uvc} (hwf : p.wf = true) (h : u.Inv p) (hp : u.phase = .encEmit) :
    ∃ v, seqStep p u = .ok v := by
  have hidx : u.idx < p.obufDepth := (h.enc_emit hp).2.1.trans_le (h.nb_le hwf hp).2
  rw [seqStep_encEmit p hp]
  obtain ⟨_, he⟩ | ⟨_, he⟩ := encEmitStep_cases hidx <;> exact ⟨_, he⟩

/-- Where the input of a decode has been written, the sequencer's step answers (R168, R205). -/
theorem Uvc.Inv.exists_seqStep {p : Params} {u : Uvc} (hwf : p.wf = true) (h : u.Inv p) (hin : u.phase = .decStep → u.inputWritten) :
    ∃ v, seqStep p u = .ok v := by
  cases hp : u.phase with
  | none => exact ⟨_, seqStep_none p hp⟩
  | encSize => exact ⟨_, seqStep_encSize p hp⟩
  | encEmit => exact exists_seqStep_encEmit hwf h hp
  | decStep => exact exists_seqStep_decStep h hp (hin hp)

/-- A read that asks for no unwritten byte has a value (R166, R203). -/
theorem exists_readValue {r : HostRead} {u : Uvc} (h : (Event.read r).readsWritten u = true) : ∃ v, readValue r u = .ok v := by
  cases r with
  | inByte i =>
    obtain ⟨b, hb⟩ := Option.isSome_iff_exists.1 h
    exact ⟨_, readByte_of_some .input hb⟩
  | outByte i =>
    obtain ⟨b, hb⟩ := Option.isSome_iff_exists.1 h
    exact ⟨_, readByte_of_some .output hb⟩
  | _ => exact ⟨_, rfl⟩

theorem exists_runEvent {e : Event} {s : State} (h : e.readsWritten s.uvc = true) : ∃ t, runEvent e s = .next t := by
  cases e with
  | write w =>
    obtain ⟨f, hf, _⟩ := hostWrite_cases w s
    exact ⟨_, hf⟩
  | read r =>
    obtain ⟨v, hv⟩ := exists_readValue h
    exact ⟨_, hostRead_of_ok hv⟩
  | poll =>
    rw [runEvent]
    split <;> exact ⟨_, hostRead_status _⟩
  | reset => exact ⟨_, rfl⟩

/-- The outside's turn answers where its next action exists and reads no unwritten byte (R167, R203). -/
theorem exists_externalTurn {s : State} (h : ∀ e rest, s.events = e :: rest → e.wf s.params = true ∧ e.readsWritten s.uvc = true) :
    ∃ t, externalTurn s = .next t := by
  cases hes : s.events with
  | nil => exact ⟨s, by simp [externalTurn, hes]⟩
  | cons e rest =>
    obtain ⟨hwf, hread⟩ := h e rest hes
    rw [externalTurn_of_wf hes hwf]
    exact exists_runEvent hread

/-- Settles O51: whoever has the turn, the step is nobody's, the outside's or the sequencer's. -/
theorem writtenInputNeverFaults : Obligations.WrittenInputNeverFaults := by
  refine ⟨fun p u hwf hinv hin => hinv.exists_seqStep hwf hin, fun s ⟨hwf, hinv⟩ hin hev => ?_⟩
  obtain ⟨l, n, hs, hturn⟩ := chooseTurn_cases s
  obtain ⟨ha, _⟩ | ⟨ha, _⟩ | ⟨ha, _⟩ := hturn <;> rw [step, ← Prod.mk.eta (p := chooseTurn s), hs, ha]
  · exact ⟨_, rfl⟩
  · exact exists_externalTurn (s := { s with schedule := l, fresh := n }) hev
  · obtain ⟨v, hv⟩ := hinv.exists_seqStep hwf hin
    exact ⟨_, sequencerTurn_of_ok (s := { s with schedule := l, fresh := n }) hv⟩

/-! ## Results -/

@[simp] theorem storeOperand_cause (w : HostWrite) (u : Uvc) : (storeOperand w u).cause = u.cause := by cases w <;> rfl

@[simp] theorem storeOperand_valueOut (w : HostWrite) (u : Uvc) : (storeOperand w u).valueOut = u.valueOut := by cases w <;> rfl

@[simp] theorem storeOperand_outLen (w : HostWrite) (u : Uvc) : (storeOperand w u).outLen = u.outLen := by cases w <;> rfl

@[simp] theorem storeOperand_outBuf (w : HostWrite) (u : Uvc) : (storeOperand w u).outBuf = u.outBuf := by cases w <;> rfl

@[simp] theorem storeOperand_phase (w : HostWrite) (u : Uvc) : (storeOperand w u).phase = u.phase := by cases w <;> rfl

/-- Settles O54: with the sequencer at rest, of the effects of a step only an issue and a reset touch a result. -/
theorem resultsStayUntilIssueOrReset : Obligations.ResultsStayUntilIssueOrReset := by
  intro s t hinv hb hcmd hreset hstep
  obtain ⟨_, heffect⟩ := step_effect hstep
  generalize t.uvc = v at *
  cases heffect with
  | quiescent _ _ | observed _ _ | dropped _ _ => exact ⟨rfl, rfl, rfl, rfl, rfl, rfl, rfl⟩
  | sequencer hp _ => exact absurd (hinv.2.phase_none hb) hp
  | issued he _ _ | illegal he _ _ => exact absurd he (hcmd _ _)
  | stored _ _ _ _ => simp
  | reset _ he => exact absurd he (hreset _)

end Sys2Proof.Machine
end

