-- ==== Sys2Proof/Proofs/Fairness.lean ====
section
/-! Proof of O53 and O58: every command completes within the sequencer steps R172 counts, and the machine takes those steps, whether the
schedule gives the sequencer its turns or the free turns do (20_memory.md R61; 42_control.md R169, R172; log 8). -/

namespace Sys2Proof.Machine

/-! ## The sequencer alone -/

/-- The most sequencer steps a command in progress can still take, counted from IDX, where `stepsLeft` counts from the first byte (R172). -/
def stepsAhead (p : Params) (u : Uvc) : Nat :=
  match u.phase with
  | .none => 0
  | .encSize => 1 + p.obufDepth
  | .encEmit => p.obufDepth - u.idx
  | .decStep => u.inLen.toNat + 1 - u.idx

theorem stepsAhead_le_stepsLeft (p : Params) (u : Uvc) : stepsAhead p u ≤ stepsLeft p u := by
  unfold stepsAhead stepsLeft
  cases u.phase with
  | none | encSize => exact le_rfl
  | encEmit | decStep => exact Nat.sub_le ..

/-- Every step of a command in progress brings its end nearer, and none turns an encode into a decode (R106, R107, R137). -/
theorem Uvc.Inv.stepsAhead_lt {p : Params} {u v : Uvc} (hwf : p.wf = true) (h : u.Inv p) (hph : u.phase ≠ .none)
    (hs : seqStep p u = .ok v) : stepsAhead p v < stepsAhead p u ∧ (v.phase = .decStep → u.phase = .decStep) := by
  cases hp : u.phase with
  | none => exact absurd hp hph
  | encSize =>
    obtain rfl : encSizeStep u = v := by simpa [seqStep_encSize p hp] using hs
    obtain ⟨_, he⟩ | ⟨_, he⟩ := encSizeStep_cases u <;> simp [stepsAhead, he, hp]
  | encEmit =>
    have hidx : u.idx < p.obufDepth := (h.enc_emit hp).2.1.trans_le (h.nb_le hwf hp).2
    rw [seqStep_encEmit p hp] at hs
    obtain ⟨_, rfl⟩ | ⟨_, rfl⟩ := encEmitStep_ok hs <;> simp only [stepsAhead, hp]
    · exact ⟨by omega, id⟩
    · exact ⟨by omega, nofun⟩
  | decStep =>
    refine ⟨?_, fun _ => rfl⟩
    obtain ⟨hidx, _⟩ := h.dec_step hp
    rw [seqStep_decStep p hp] at hs
    obtain ⟨_, rfl⟩ | ⟨_, _, rfl⟩ | ⟨_, _, _, _, ⟨_, rfl⟩ | ⟨_, _, rfl⟩ | ⟨_, _, rfl⟩⟩ := decStep_cases hs <;>
      simp only [stepsAhead, hp, raiseBadArgument_phase] <;> omega

/-- The input of a decode stays written through the sequencer's steps (R65). -/
theorem OperandsKept.inputWritten {u v : Uvc} (h : OperandsKept u v) (hin : u.inputWritten) : v.inputWritten := by
  obtain ⟨_, _, hlen, hbuf⟩ := h
  rwa [Uvc.inputWritten, hlen, hbuf]

/-- Every command in progress completes in OK or ERR within the steps R172 counts, where the input of a decode has been written. -/
theorem Uvc.Inv.exists_completesAfter {p : Params} {u : Uvc} (hwf : p.wf = true) (h : u.Inv p) (hb : u.state = .busy)
    (hin : u.phase = .decStep → u.inputWritten) :
    ∃ k v, k ≤ stepsAhead p u ∧ CompletesAfter p k u v ∧ (v.state = .ok ∨ v.state = .err) := by
  induction hn : stepsAhead p u using Nat.strong_induction_on generalizing u with
  | _ n ih =>
    subst hn
    obtain ⟨w, hs⟩ := h.exists_seqStep hwf hin
    obtain ⟨hlt, hdec⟩ := h.stepsAhead_lt hwf (h.busy_iff.1 hb) hs
    by_cases hwb : w.state = .busy
    · obtain ⟨k, v, hk, hc, hend⟩ :=
        ih _ hlt (h.after_seqStep hwf hs) hwb (fun hp => (seqStep_operandsKept hs).inputWritten (hin (hdec hp))) rfl
      exact ⟨k + 1, v, by omega, .cons hb hs hc, hend⟩
    · refine ⟨1, w, by omega, .cons hb hs (.zero p hwb), ?_⟩
      obtain he | he | ⟨he, _⟩ := seqStep_ends hs
      · exact absurd (he.trans hb) hwb
      · exact .inr he
      · exact .inl he

/-- With PHASE = NONE any number of sequencer steps leaves the UVC as it is (R171). -/
theorem seqRun_of_phase_none (p : Params) {u : Uvc} (hp : u.phase = .none) (k : Nat) : seqRun p k u = .ok u := by
  induction k with
  | zero => rfl
  | succ k ih => rw [seqRun_succ k (seqStep_none p hp), ih]

section
variable {p : Params} {k : Nat} {u v : Uvc}

/-- A command in progress that completes has a sequencer step. -/
theorem CompletesAfter.phase_ne_none (h : CompletesAfter p k u v) (hb : u.state = .busy) : u.phase ≠ .none := by
  intro hp
  obtain rfl : u = v := Except.ok.inj ((seqRun_of_phase_none p hp k).symm.trans h.1)
  exact h.2.1 hb

/-- A command that completes in `k + 1` steps has its next one, and then `k` to go. -/
theorem CompletesAfter.exists_seqStep (h : CompletesAfter p (k + 1) u v) : ∃ w, seqStep p u = .ok w ∧ CompletesAfter p k w v := by
  cases hs : seqStep p u with
  | ok w => exact ⟨w, rfl, h.of_seqStep hs⟩
  | error f => simpa [seqRun, hs] using h.1

end

/-! ## The outside's turn while a command is in progress -/

/-- A harmless event exists in the interface. -/
theorem Event.wf_of_harmless {p : Params} {e : Event} (h : e.harmless p = true) : e.wf p = true := by
  cases e with
  | write w => exact h
  | read r =>
    cases r with
    | inByte _ | outByte _ => cases h
    | _ => rfl
  | poll | reset => rfl

/-- A harmless event reads no buffer byte. -/
theorem Event.readsWritten_of_harmless {p : Params} {e : Event} (u : Uvc) (h : e.harmless p = true) : e.readsWritten u = true := by
  cases e with
  | read r =>
    cases r with
    | inByte _ | outByte _ => cases h
    | _ => rfl
  | _ => rfl

section
variable {s : State} (hb : s.uvc.state = .busy)
include hb

/-- While BUSY a harmless event changes only what is pending and what was read (R58, R165). -/
theorem runEvent_of_harmless {e : Event} (he : e.harmless s.params = true) :
    ∃ es rb, runEvent e s = .next { s with events := es, readBack := rb } := by
  cases e with
  | write w => exact ⟨_, _, hostWrite_of_busy w hb⟩
  | read r =>
    obtain ⟨v, hv⟩ := exists_readValue (Event.readsWritten_of_harmless s.uvc he)
    exact ⟨_, _, hostRead_of_ok hv⟩
  | poll => exact ⟨_, _, (if_pos hb).trans (hostRead_status _)⟩
  | reset => cases he

/-- While BUSY the outside's turn changes only what is pending and what was read, and its events stay harmless. -/
theorem externalTurn_of_harmless (hev : ∀ e ∈ s.events, e.harmless s.params = true) :
    ∃ es rb, externalTurn s = .next { s with events := es, readBack := rb } ∧ ∀ e ∈ es, e.harmless s.params = true := by
  suffices h : ∃ es rb, externalTurn s = .next { s with events := es, readBack := rb } by
    obtain ⟨es, rb, ht⟩ := h
    exact ⟨es, rb, ht, fun e he => hev e (externalTurn_events_subset ht he)⟩
  cases hes : s.events with
  | nil =>
    have ht : externalTurn s = .next s := by simp [externalTurn, hes]
    exact ⟨s.events, s.readBack, ht⟩
  | cons e rest =>
    have he : e.harmless s.params = true := hev e (by simp [hes])
    rw [externalTurn_of_wf hes (Event.wf_of_harmless he)]
    exact runEvent_of_harmless (s := { s with events := rest }) hb he

end

/-! ## A schedule that gives the sequencer its turns -/

/-- A run of at most `n` steps from `s` reaches a state whose UVC is `v`. -/
def ReachesWithin (n : Nat) (s : State) (v : Uvc) : Prop :=
  ∃ (m : Nat) (t : State), m ≤ n ∧ Host.Core.run Sys2Proof.core m s = .next t ∧ t.uvc = v

theorem ReachesWithin.of_eq {s : State} {v : Uvc} (n : Nat) (h : s.uvc = v) : ReachesWithin n s v :=
  ⟨0, s, n.zero_le, rfl, h⟩

theorem ReachesWithin.of_step {n : Nat} {s t : State} {v : Uvc} (hstep : step s = .next t) (h : ReachesWithin n t v) :
    ReachesWithin (n + 1) s v := by
  obtain ⟨m, x, hm, hrun, hx⟩ := h
  exact ⟨m + 1, x, Nat.succ_le_succ hm, (core_run_succ m hstep).trans hrun, hx⟩

/-- Where a command completes in `k` steps and the list `l` gives the sequencer `k` turns, the machine reaches that end within the length
of `l`, where `l` is the schedule, or nothing is pending and every turn is the sequencer's. -/
theorem CompletesAfter.reachesWithin {l : List Agent} {s : State} {k : Nat} {v : Uvc} (hc : CompletesAfter s.params k s.uvc v)
    (hev : ∀ e ∈ s.events, e.harmless s.params = true) (hl : s.events = [] ∨ s.schedule = l) (hk : k ≤ l.count .sequencer) :
    ReachesWithin l.length s v := by
  induction l generalizing s k with
  | nil =>
    obtain rfl : k = 0 := by simpa using hk
    exact .of_eq _ hc.eq_of_zero
  | cons a l ih =>
    cases k with
    | zero => exact .of_eq _ hc.eq_of_zero
    | succ k =>
      have hp := hc.phase_ne_none hc.busy
      obtain ⟨w, hs, hw⟩ := hc.exists_seqStep
      have hless : k ≤ l.count .sequencer := by
        rw [List.count_cons] at hk
        split at hk <;> omega
      cases hes : s.events with
      | nil => exact .of_step ((step_of_no_event hes hp).trans (sequencerTurn_of_ok hs)) (ih hw hev (.inl hes) hless)
      | cons e rest =>
        have hstep := step_of_schedule hes hp (hl.resolve_left (by simp [hes]))
        cases a with
        | external =>
          obtain ⟨es, rb, ht, hharm⟩ := externalTurn_of_harmless (s := { s with schedule := l }) hc.busy hev
          exact .of_step (hstep.trans ht) (ih hc hharm (.inr rfl) (by simpa using hk))
        | sequencer =>
          have ht := sequencerTurn_of_ok (s := { s with schedule := l }) hs
          exact .of_step (hstep.trans ht) (ih hw hev (.inr rfl) hless)

/-- Settles O53: the command's own run takes no more steps than R172 counts, and the schedule gives the sequencer as many turns. -/
theorem commandCompletesUnderFairSchedule : Obligations.CommandCompletesUnderFairSchedule := by
  intro s ⟨hwf, hinv⟩ hb hin hev hcount
  obtain ⟨k, v, hk, hc, hend⟩ := hinv.exists_completesAfter hwf hb hin
  obtain ⟨m, t, hm, hrun, rfl⟩ := hc.reachesWithin hev (.inr rfl) (hk.trans ((stepsAhead_le_stepsLeft ..).trans hcount))
  exact ⟨m, t, hm, hrun, hend⟩

/-! ## The sequencer's turn comes -/

/-- A run from `s` reaches a turn of the sequencer, with the UVC and the configuration as they were and harmless events still pending. -/
def ReachesTurn (s : State) : Prop :=
  ∃ (m : Nat) (t : State), Host.Core.run Sys2Proof.core m s = .next t ∧ t.uvc = s.uvc ∧ t.params = s.params ∧
    (∀ e ∈ t.events, e.harmless t.params = true) ∧ (chooseTurn t).1 = some .sequencer

theorem ReachesTurn.now {s : State} (hev : ∀ e ∈ s.events, e.harmless s.params = true) (ha : (chooseTurn s).1 = some .sequencer) :
    ReachesTurn s :=
  ⟨0, s, rfl, rfl, rfl, hev, ha⟩

theorem ReachesTurn.of_step {s t : State} (hstep : step s = .next t) (hu : t.uvc = s.uvc) (hp : t.params = s.params)
    (h : ReachesTurn t) : ReachesTurn s := by
  obtain ⟨m, x, hrun, hxu, hxp, hrest⟩ := h
  exact ⟨m + 1, x, (core_run_succ m hstep).trans hrun, hxu.trans hu, hxp.trans hp, hrest⟩

section
variable {s : State} (hp : s.uvc.phase ≠ .none)
include hp

/-- With no event pending the sequencer has the turn (R171). -/
theorem chooseTurn_of_no_event (he : s.events = []) : (chooseTurn s).1 = some .sequencer := by
  simp [chooseTurn, State.externalReady, State.sequencerReady, he, hp]

/-- With an event pending the schedule gives the turn (R61; log 8). -/
theorem chooseTurn_of_schedule {e : Event} {rest : List Event} (he : s.events = e :: rest) {a : Agent} {l : List Agent}
    (hl : s.schedule = a :: l) : (chooseTurn s).1 = some a := by
  simp [chooseTurn, State.externalReady, State.sequencerReady, he, hp, hl]

/-- With an event pending and the schedule exhausted the turn is free (R61; log 8). -/
theorem chooseTurn_of_schedule_nil {e : Event} {rest : List Event} (he : s.events = e :: rest) (hl : s.schedule = []) :
    (chooseTurn s).1 = some (freeTurn s.fresh) := by
  simp [chooseTurn, State.externalReady, State.sequencerReady, he, hp, hl]

end

/-- Once the schedule is exhausted, a free turn of the sequencer `d` choices from now is reached (R172; log 8). -/
theorem reachesTurn_of_freeTurn {s : State} {d : Nat} (hb : s.uvc.state = .busy) (hp : s.uvc.phase ≠ .none)
    (hev : ∀ e ∈ s.events, e.harmless s.params = true) (hl : s.schedule = []) (hd : freeTurn (s.fresh + d) = .sequencer) :
    ReachesTurn s := by
  induction d generalizing s with
  | zero =>
    cases hes : s.events with
    | nil => exact .now hev (chooseTurn_of_no_event hp hes)
    | cons e rest => exact .now hev ((chooseTurn_of_schedule_nil hp hes hl).trans (congrArg some hd))
  | succ d ih =>
    cases hes : s.events with
    | nil => exact .now hev (chooseTurn_of_no_event hp hes)
    | cons e rest =>
      have hturn := chooseTurn_of_schedule_nil hp hes hl
      have hstep := step_of_schedule_nil hes hp hl
      cases hf : freeTurn s.fresh <;> rw [hf] at hturn hstep
      case sequencer => exact .now hev hturn
      case external =>
        obtain ⟨es, rb, ht, hharm⟩ := externalTurn_of_harmless (s := { s with fresh := s.fresh + 1 }) hb hev
        refine .of_step (hstep.trans ht) rfl rfl (ih hb hp hharm hl ?_)
        rwa [Nat.add_assoc, Nat.add_comm 1]

/-- Whatever the schedule, the sequencer's turn comes while a command is in progress (R172). -/
theorem reachesTurn {s : State} (hb : s.uvc.state = .busy) (hp : s.uvc.phase ≠ .none)
    (hev : ∀ e ∈ s.events, e.harmless s.params = true) : ReachesTurn s := by
  induction hl : s.schedule generalizing s with
  | nil =>
    obtain ⟨m, hm, hseq, _⟩ := freeTurn_fair s.fresh
    exact reachesTurn_of_freeTurn hb hp hev hl (d := m - s.fresh) (by rwa [Nat.add_sub_cancel' hm])
  | cons a l ih =>
    cases hes : s.events with
    | nil => exact .now hev (chooseTurn_of_no_event hp hes)
    | cons e rest =>
      cases a with
      | sequencer => exact .now hev (chooseTurn_of_schedule hp hes hl)
      | external =>
        obtain ⟨es, rb, ht, hharm⟩ := externalTurn_of_harmless (s := { s with schedule := l }) hb hev
        exact .of_step ((step_of_schedule hes hp hl).trans ht) rfl rfl (ih hb hp hharm rfl)

/-! ## Every command completes -/

/-- A step on the sequencer's turn is its step (R171). -/
theorem step_of_turn {s : State} {w : Uvc} (ha : (chooseTurn s).1 = some .sequencer) (hs : seqStep s.params s.uvc = .ok w) :
    ∃ l n, step s = .next { s with schedule := l, fresh := n, uvc := w } := by
  obtain ⟨l, n, hc, _⟩ := chooseTurn_cases s
  refine ⟨l, n, ?_⟩
  rw [step, ← Prod.mk.eta (p := chooseTurn s), hc, ha]
  exact sequencerTurn_of_ok (s := { s with schedule := l, fresh := n }) hs

/-- A run of `m` steps and then of `n` is one of `m + n`. -/
theorem core_run_add {s t : State} {m : Nat} (n : Nat) (h : Host.Core.run Sys2Proof.core m s = .next t) :
    Host.Core.run Sys2Proof.core (m + n) s = Host.Core.run Sys2Proof.core n t := by
  induction m generalizing s with
  | zero =>
    obtain rfl : s = t := Host.Outcome.next.inj h
    rw [Nat.zero_add]
  | succ m ih =>
    obtain ⟨x, hstep, hx⟩ := core_run_succ_next m h
    rw [Nat.add_right_comm, core_run_succ _ hstep, ih hx]

/-- A run of the machine reaches the command's end, one turn of the sequencer after another (R172). -/
theorem CompletesAfter.exists_run {s : State} {k : Nat} {v : Uvc} (hc : CompletesAfter s.params k s.uvc v)
    (hev : ∀ e ∈ s.events, e.harmless s.params = true) :
    ∃ (m : Nat) (t : State), Host.Core.run Sys2Proof.core m s = .next t ∧ t.uvc = v := by
  induction k generalizing s with
  | zero => exact ⟨0, s, rfl, hc.eq_of_zero⟩
  | succ k ih =>
    obtain ⟨m, t, hrun, hu, hp, htev, hturn⟩ := reachesTurn hc.busy (hc.phase_ne_none hc.busy) hev
    rw [← hu, ← hp] at hc
    obtain ⟨w, hs, hw⟩ := hc.exists_seqStep
    obtain ⟨l, n, hstep⟩ := step_of_turn hturn hs
    obtain ⟨j, x, hj, hx⟩ := ih (s := { t with schedule := l, fresh := n, uvc := w }) hw htev
    exact ⟨m + (j + 1), x, by rw [core_run_add _ hrun, core_run_succ j hstep, hj], hx⟩

/-- Settles O58: the free turns reach the sequencer, and each of its turns brings the command's end nearer. -/
theorem sequencerIsWeaklyFair : Obligations.SequencerIsWeaklyFair := by
  refine ⟨fun s hb hp hev => ?_, fun s ⟨hwf, hinv⟩ hb hin hev => ?_⟩
  · obtain ⟨m, t, hrun, hu, _, _, hturn⟩ := reachesTurn hb hp hev
    exact ⟨m, t, hrun, hu, hturn⟩
  · obtain ⟨k, v, hk, hc, hend⟩ := hinv.exists_completesAfter hwf hb hin
    exact ⟨k, v, hk.trans (stepsAhead_le_stepsLeft ..), hc, hend, hc.exists_run hev⟩

end Sys2Proof.Machine
end

