-- ==== Sys2Proof/Proofs/Exceptions.lean ====
section
/-! Proof of O24, O43 and O44: what a failure writes, the causes each command can fail with, and a bound of zero
(60_exceptions.md R181 to R184; 42_control.md R161, R162). -/

namespace Sys2Proof.Machine

/-! ## The frame of a failure -/

/-- A sequencer step that ends in ERR is a failure, with a cause of its phase (R106, R137, R181). -/
theorem seqStep_raises {p : Params} {u v : Uvc} (hu : u.state ≠ .err) (h : seqStep p u = .ok v) (hv : v.state = .err) :
    ∃ c, v = raiseBadArgument c u ∧ (c = .encBound ∨ c = .decBound ∨ c = .decTrunc ∨ c = .decCapacity) := by
  cases hp : u.phase with
  | none =>
    obtain rfl : u = v := by simpa [seqStep_none p hp] using h
    exact absurd hv hu
  | encSize =>
    obtain rfl : encSizeStep u = v := by simpa [seqStep_encSize p hp] using h
    obtain ⟨_, he⟩ | ⟨_, he⟩ := encSizeStep_cases u <;> rw [he] at hv ⊢
    · exact ⟨_, rfl, .inl rfl⟩
    · exact absurd hv hu
  | encEmit =>
    rw [seqStep_encEmit p hp] at h
    obtain ⟨_, rfl⟩ | ⟨_, rfl⟩ := encEmitStep_ok h
    · exact absurd hv hu
    · cases hv
  | decStep =>
    rw [seqStep_decStep p hp] at h
    obtain ⟨_, rfl⟩ | ⟨_, _, rfl⟩ | ⟨_, _, _, _, ⟨_, rfl⟩ | ⟨_, _, rfl⟩ | ⟨_, _, rfl⟩⟩ := decStep_cases h
    · exact ⟨_, rfl, .inr (.inl rfl)⟩
    · exact ⟨_, rfl, .inr (.inr (.inl rfl))⟩
    · exact ⟨_, rfl, .inr (.inr (.inr rfl))⟩
    · exact absurd hv hu
    · cases hv

/-- A write to CMD that ends in ERR is a failure: of an illegal word, or of a decode outside the input-length contract (R161, R162). -/
theorem hostWrite_cmd_raises {s t : State} {c : Byte} (hb : s.uvc.state ≠ .busy) (h : hostWrite (.cmd c) s = .next t)
    (ht : t.uvc.state = .err) :
    ∃ e, t = { s with uvc := raiseBadArgument e s.uvc } ∧ (e = .illegalCmd ∨ e = .contract) := by
  obtain ⟨f, hf, hcases⟩ := hostWrite_cases (.cmd c) s
  rw [State.hostStore_free f hb] at hf
  obtain rfl := Host.Outcome.next.inj (hf.symm.trans h)
  obtain ⟨_, i, _, _, rfl⟩ | ⟨_, _, _, _, rfl⟩ | ⟨hc, _⟩ := hcases
  · obtain ⟨_, _, he⟩ | ⟨_, he⟩ := issue_cases s.params i.dir i.bsel s.uvc <;> rw [he] at ht ⊢
    · exact ⟨_, rfl, .inr rfl⟩
    · cases ht
  · exact ⟨_, rfl, .inl rfl⟩
  · exact absurd rfl (hc c)

/-- Settles O24. -/
theorem failureWritesSixRegisters : Obligations.FailureWritesSixRegisters := by
  refine ⟨fun p u v hb h hv => ?_, fun s t c hb h ht => ?_⟩
  · obtain ⟨c, rfl, hc⟩ := seqStep_raises (by simp [hb]) h hv
    exact ⟨rfl, hc⟩
  · obtain ⟨e, rfl, he⟩ := hostWrite_cmd_raises hb h ht
    exact ⟨rfl, he⟩

/-! ## A bound of zero -/

/-- With a bound of zero a started decode fails in its first step, before it looks at the input (R137, R183). -/
theorem startCommand_decode_fails_of_zero (p : Params) {b : BSel} {u : Uvc} (hbound : boundOf b u.maxReg = .fin 0) :
    ∃ v, CompletesAfter p 1 (startCommand .decode b u) v ∧ FailedWith u v .decBound := by
  have hstep : seqStep p (startCommand .decode b u) = .ok (raiseBadArgument .decBound (startCommand .decode b u)) :=
    seqStep_decStep_of_spent rfl ((budgetSpent_iff _).2 hbound)
  exact ⟨_, .cons rfl hstep (.zero p (by simp)), rfl, rfl, rfl, rfl, rfl, rfl, rfl⟩

/-- Settles O44: every encoding has a byte, and a decode checks its budget before it reads. -/
theorem zeroBoundFails : Obligations.ZeroBoundFails := by
  intro s hb hmax
  have hbound : boundOf .maxReg s.uvc.maxReg = .fin 0 := (boundOf_maxReg_eq_fin_iff ..).2 (by simp [hmax])
  refine ⟨?_, fun hlen => ?_⟩
  · have hover : exceedsBound (boundOf .maxReg s.uvc.maxReg) (nbytes s.uvc.valueIn) = true :=
      hbound ▸ (exceedsBound_fin 0 _).2 (nbytes_pos _)
    obtain ⟨v, hc, hv, _⟩ := startCommand_encode_fails s.params .maxReg hover
    exact ⟨_, v, exec_starts hb nofun, hbound, hc, hv⟩
  · obtain ⟨v, hc, hv⟩ := startCommand_decode_fails_of_zero s.params hbound
    exact ⟨_, v, exec_starts hb fun _ => hlen, hbound, hc, hv⟩

/-! ## The causes of a command -/

section
variable {p : Params} {k : Nat} {u v : Uvc}

/-- A run of the sequencer that goes past its first step has made that step. -/
theorem exists_seqStep_of_seqRun_succ (h : seqRun p (k + 1) u = .ok v) : ∃ w, seqStep p u = .ok w ∧ seqRun p k w = .ok v := by
  cases hs : seqStep p u with
  | ok w => exact ⟨w, rfl, seqRun_succ k hs ▸ h⟩
  | error f => simp [seqRun, hs] at h

/-- Wherever the sequencer's run is no longer BUSY, the command is at its end (R171). -/
theorem CompletesAfter.eq_of_seqRun {n : Nat} {w : Uvc} (hc : CompletesAfter p n u v) (hv : v.phase = .none)
    (h : seqRun p k u = .ok w) (hw : w.state ≠ .busy) : w = v := by
  induction n generalizing u k with
  | zero =>
    obtain rfl := hc.eq_of_zero
    exact (Except.ok.inj ((seqRun_of_phase_none p hv k).symm.trans h)).symm
  | succ n ih =>
    cases k with
    | zero =>
      obtain rfl : u = w := Except.ok.inj h
      exact absurd hc.busy hw
    | succ k =>
      obtain ⟨x, hs, hx⟩ := exists_seqStep_of_seqRun_succ h
      exact ih (hc.of_seqStep hs) hx

/-- The causes a decode with the bound `b` can fail with after its issue (R137, R182): DEC_BOUND needs a bound, and DEC_CAPACITY a bound
that W has no room for, or none. -/
inductive DecodeCause (p : Params) (b : Bound) : Cause → Prop
  | bound (hb : b ≠ .unb) : DecodeCause p b .decBound
  | trunc : DecodeCause p b .decTrunc
  | capacity (hroom : ∀ m, b = .fin m → p.w < 7 * m.toNat) : DecodeCause p b .decCapacity

/-- The capacity check fails only where the bound lets through more bytes than W has room for (R134, R140). -/
theorem lt_of_capacity {m : Half} {bud : Bound} {acc i : Nat} (hbud : budgetAfter (.fin m) i bud) (hspent : bud ≠ .fin 0)
    (hacc : acc < 2 ^ (7 * i)) (hcap : 2 ^ (p.w - 7) ≤ acc) : p.w < 7 * m.toNat := by
  have hlt : p.w - 7 < 7 * i := (Nat.pow_lt_pow_iff_right (by decide)).1 (hcap.trans_lt hacc)
  cases bud with
  | unb => exact hbud.elim
  | fin l =>
    obtain ⟨_, _, hl⟩ := decBudget_fin (k := l) (by simpa using hspent)
    have hsum : i + l.toNat = m.toNat := hbud
    omega

/-- A decode in progress that is in ERR after some of its steps has one of the causes of its bound: after IDX bytes the budget is the bound
less IDX, and ACC has at most 7 IDX bits. -/
theorem Decoding.cause_of_seqRun {s : Uvc} {b : Bound} (h : Decoding s u) (hbud : budgetAfter b u.idx u.bud)
    (hacc : u.acc < 2 ^ (7 * u.idx)) (hrun : seqRun p k u = .ok v) (hv : v.state = .err) : DecodeCause p b v.cause := by
  induction k generalizing u with
  | zero =>
    obtain rfl : u = v := Except.ok.inj hrun
    cases h.busy.symm.trans hv
  | succ k ih =>
    obtain ⟨w, hs, hw⟩ := exists_seqStep_of_seqRun_succ hrun
    have hended (hp : w.phase = .none) : v = w := Except.ok.inj (hw.symm.trans (seqRun_of_phase_none p hp k))
    obtain ⟨hspent, rfl⟩ | ⟨_, _, rfl⟩ | ⟨hspent, _, x, _, ⟨hcap, rfl⟩ | ⟨_, hc, rfl⟩ | ⟨_, _, rfl⟩⟩ :=
      decStep_cases (seqStep_decStep p h.phase ▸ hs)
    · obtain rfl := hended rfl
      refine .bound ?_
      rintro rfl
      rwa [hspent] at hbud
    · obtain rfl := hended rfl
      exact .trunc
    · obtain rfl := hended rfl
      refine .capacity ?_
      rintro m rfl
      exact lt_of_capacity hbud hspent hacc hcap
    · have hnext := h.of_cont hc
      rw [consumeByte_of_cont hc] at hnext
      exact ih hnext (budgetAfter_succ hbud hspent) (assemble_lt_two_pow x hacc) hw
    · obtain rfl := hended rfl
      cases hv

end

section
variable {i : Instr} {s t : State} {k : Nat} {u : Uvc}

/-- An encode command that is in ERR has been refused by its bound (R106, R182). -/
theorem exec_encode_cause (hi : i.dir = .encode) (hwf : s.params.wf = true) (hval : s.uvc.valueIn < 2 ^ s.params.w)
    (hb : s.uvc.state ≠ .busy) (ht : exec i s = .next t) (hrun : seqRun s.params k t.uvc = .ok u) (hu : u.state = .err) :
    u.cause = .encBound ∧ exceedsBound (boundOf i.bsel s.uvc.maxReg) (nbytes s.uvc.valueIn) = true := by
  obtain ⟨t', v, ht', _, hok, herr⟩ := exec_encode_completes hi hwf hval hb
  obtain rfl := Host.Outcome.next.inj (ht'.symm.trans ht)
  cases hx : exceedsBound (boundOf i.bsel s.uvc.maxReg) (nbytes s.uvc.valueIn) with
  | false =>
    obtain ⟨hc, hstate, _, hphase, _⟩ := hok hx
    obtain rfl := hc.eq_of_seqRun hphase hrun (by simp [hu])
    cases hstate.symm.trans hu
  | true =>
    obtain ⟨hc, _, hcause, hphase, _⟩ := herr hx
    obtain rfl := hc.eq_of_seqRun hphase hrun (by simp [hu])
    exact ⟨hcause, rfl⟩

/-- A decode command that is in ERR broke the input-length contract, or has one of the causes of its bound (R162, R182). -/
theorem exec_decode_cause (hi : i.dir = .decode) (hb : s.uvc.state ≠ .busy) (ht : exec i s = .next t)
    (hrun : seqRun s.params k t.uvc = .ok u) (hu : u.state = .err) :
    u.cause = .contract ∨ DecodeCause s.params (boundOf i.bsel s.uvc.maxReg) u.cause := by
  rw [exec_eq, State.hostStore_free _ hb, hi] at ht
  obtain rfl := Host.Outcome.next.inj ht
  obtain ⟨_, _, he⟩ | ⟨_, he⟩ := issue_cases s.params .decode i.bsel s.uvc <;> rw [he] at hrun
  · obtain rfl := Except.ok.inj ((seqRun_of_phase_none s.params rfl k).symm.trans hrun)
    exact .inl rfl
  · have hstarted : Decoding s.uvc (startCommand .decode i.bsel s.uvc) := ⟨rfl, rfl, rfl, rfl, rfl, rfl, rfl, rfl, rfl⟩
    exact .inr (hstarted.cause_of_seqRun (budgetAfter_zero _) (by simp) hrun hu)

end

/-- Settles O43: an encode fails on its bound alone, and the bound of a decode leaves out the causes it has no use for. -/
theorem causesEachCommandEndsWith : Obligations.CausesEachCommandEndsWith := by
  refine ⟨fun i s t k u hwf hval hb ht hrun hu => ?_, fun c s t hc hb ht => ?_⟩
  · have henc (hi : i.dir = .encode) := exec_encode_cause hi hwf hval hb ht hrun hu
    have hdec (hi : i.dir = .decode) := exec_decode_cause hi hb ht hrun hu
    generalize u.cause = c at henc hdec ⊢
    cases i with
    | enc =>
      obtain ⟨rfl, _⟩ := henc rfl
      exact ⟨by simp, nofun⟩
    | encu =>
      obtain ⟨_, hover⟩ := henc rfl
      cases (exceedsBound_unb _).symm.trans hover
    | enc32 =>
      obtain ⟨rfl, hover⟩ := henc rfl
      exact ⟨by simp, fun _ => (exceedsBound_fixed5 ..).1 hover⟩
    | dec =>
      refine ⟨?_, nofun⟩
      obtain rfl | _ | _ | _ := hdec rfl <;> simp
    | decu =>
      refine ⟨?_, nofun⟩
      obtain rfl | hbound | _ | _ := hdec rfl
      · simp
      · exact absurd rfl hbound
      · simp
      · simp
    | dec32 =>
      refine ⟨?_, nofun⟩
      obtain rfl | _ | _ | hroom := hdec rfl
      · simp
      · simp
      · simp
      · exact absurd (hroom 5 rfl) (five_bytes_fit hwf).not_gt
  · have hillegal : ¬ ∃ i, decode c = .ok i := fun ⟨i, hi⟩ => hc i (eq_encode_of_decode hi)
    obtain rfl := Host.Outcome.next.inj ((hostWrite_cmd_of_illegal hillegal hb).symm.trans ht)
    exact ⟨rfl, rfl⟩

end Sys2Proof.Machine
end

