-- ==== Sys2Proof/Proofs/ViewWhileBusy.lean ====
section
/-! Proof of O56: while a command is BUSY its steps write neither CAUSE nor a result register, a decode leaves OUT as it is, and an encode
keeps OUT split at IDX (40_encoder.md R107; 70_reset_and_hazards.md R211). -/

namespace Sys2Proof.Machine

/-! ## Runs that are still BUSY -/

section
variable {p : Params} {u v : Uvc}

/-- A step of a command in progress ends it with the sequencer at rest, or leaves CAUSE and the results as they were
(R106, R107, R137, R181). -/
theorem seqStep_of_busy (hb : u.state = .busy) (h : seqStep p u = .ok v) :
    (v.state ≠ .busy ∧ v.phase = .none) ∨
    (v.state = .busy ∧ v.cause = u.cause ∧ v.valueOut = u.valueOut ∧ v.outLen = u.outLen ∧ v.consumed = u.consumed) := by
  cases hp : u.phase with
  | none =>
    obtain rfl : u = v := by simpa [seqStep_none p hp] using h
    exact .inr ⟨hb, rfl, rfl, rfl, rfl⟩
  | encSize =>
    obtain rfl : encSizeStep u = v := by simpa [seqStep_encSize p hp] using h
    obtain ⟨_, he⟩ | ⟨_, he⟩ := encSizeStep_cases u <;> simp [he, hb]
  | encEmit =>
    rw [seqStep_encEmit p hp] at h
    obtain ⟨_, rfl⟩ | ⟨_, rfl⟩ := encEmitStep_ok h <;> simp [hb]
  | decStep =>
    rw [seqStep_decStep p hp] at h
    obtain ⟨_, rfl⟩ | ⟨_, _, rfl⟩ | ⟨_, _, _, _, ⟨_, rfl⟩ | ⟨_, _, rfl⟩ | ⟨_, _, rfl⟩⟩ := decStep_cases h <;> simp [hb]

/-- What holds of a command in progress and is kept by each step that leaves it BUSY holds wherever its run is still BUSY. -/
theorem seqRun_induction_of_busy {P : Uvc → Prop}
    (hstep : ∀ {u v}, P u → u.state = .busy → seqStep p u = .ok v → v.state = .busy → P v) {k : Nat} (hP : P u)
    (hb : u.state = .busy) (hrun : seqRun p k u = .ok v) (hv : v.state = .busy) : P v := by
  induction k generalizing u with
  | zero =>
    obtain rfl : u = v := Except.ok.inj hrun
    exact hP
  | succ k ih =>
    obtain ⟨w, hs, hw⟩ := exists_seqStep_of_seqRun_succ hrun
    obtain ⟨hend, hrest⟩ | ⟨hwb, _⟩ := seqStep_of_busy hb hs
    · obtain rfl := Except.ok.inj ((seqRun_of_phase_none p hrest k).symm.trans hw)
      exact absurd hv hend
    · exact ih (hstep hP hb hs hwb) hwb hw

/-! ## What each part of the view keeps -/

/-- CAUSE and the results as an issue clears them (R160). -/
def Uvc.ResultsClear (u : Uvc) : Prop := u.cause = .none ∧ u.valueOut = 0 ∧ u.outLen = 0 ∧ u.consumed = 0

theorem Uvc.ResultsClear.of_seqStep (h : u.ResultsClear) (hb : u.state = .busy) (hs : seqStep p u = .ok v) (hv : v.state = .busy) :
    v.ResultsClear := by
  obtain ⟨hend, _⟩ | ⟨_, hcause, hval, hlen, hcons⟩ := seqStep_of_busy hb hs
  · exact absurd hv hend
  · rwa [Uvc.ResultsClear, hcause, hval, hlen, hcons]

/-- Of the ends of DEC_STEP only a byte that continues leaves the command BUSY (R137). -/
theorem Decoding.of_seqStep {s : Uvc} (h : Decoding s u) (hs : seqStep p u = .ok v) (hv : v.state = .busy) : Decoding s v := by
  rw [seqStep_decStep p h.phase] at hs
  obtain ⟨_, rfl⟩ | ⟨_, _, rfl⟩ | ⟨_, _, _, _, ⟨_, rfl⟩ | ⟨_, hc, rfl⟩ | ⟨_, _, rfl⟩⟩ := decStep_cases hs
  · cases hv
  · cases hv
  · cases hv
  · exact consumeByte_of_cont hc ▸ h.of_cont hc
  · cases hv

/-- An encode in progress: its bytes have not been counted yet, or it has some left to write (R106, R107). -/
inductive Encoding (b : BSel) (s : Uvc) : Uvc → Prop
  | issued : Encoding b s (startCommand .encode b s)
  | emitting {u : Uvc} (h : Emitting s u) (hidx : u.idx < nbytes s.valueIn) : Encoding b s u

theorem Encoding.of_seqStep {b : BSel} {s : Uvc} (h : Encoding b s u) (hs : seqStep p u = .ok v) (hv : v.state = .busy) :
    Encoding b s v := by
  cases h with
  | issued =>
    obtain rfl := Except.ok.inj ((seqStep_encSize p rfl).symm.trans hs)
    obtain ⟨_, he⟩ | ⟨_, he⟩ := encSizeStep_cases (startCommand .encode b s) <;> rw [he] at hv ⊢
    · cases hv
    · exact .emitting ⟨rfl, rfl, rfl, rfl, rfl, rfl, ⟨rfl, rfl, rfl, rfl⟩, by simp⟩ (nbytes_pos _)
  | emitting h hidx =>
    rw [seqStep_encEmit p h.phase] at hs
    obtain ⟨hn, rfl⟩ | ⟨_, rfl⟩ := encEmitStep_ok hs
    · exact .emitting { h with outBuf := h.outBuf_write hidx } (Nat.lt_of_le_of_ne hidx (h.nb ▸ hn))
    · cases hv

/-- OUT during an encode: the new bytes below IDX, and the bytes from before the command from there on (R107, R211). -/
theorem Encoding.outBuf {b : BSel} {s : Uvc} (h : Encoding b s u) (j : Nat) :
    Memory.read u.outBuf j = if j < u.idx then (encBytes s.valueIn)[j]? else Memory.read s.outBuf j := by
  cases h with
  | issued => simp
  | emitting h _ => exact h.outBuf j

end

/-- Settles O56: the issue puts each part of the view in place, and every step that leaves the command BUSY keeps it. -/
theorem viewWhileBusy : Obligations.ViewWhileBusy := by
  intro i s t k u _ _ hb ht hrun hu
  rw [exec_eq, State.hostStore_free _ hb] at ht
  obtain rfl := Host.Outcome.next.inj ht
  obtain ⟨_, _, he⟩ | ⟨_, he⟩ := issue_cases s.params i.dir i.bsel s.uvc <;> rw [he] at hrun
  · obtain rfl := Except.ok.inj ((seqRun_of_phase_none s.params rfl k).symm.trans hrun)
    cases hu
  · have hclear : (startCommand i.dir i.bsel s.uvc).ResultsClear := ⟨rfl, rfl, rfl, rfl⟩
    obtain ⟨hcause, hval, hlen, hcons⟩ := seqRun_induction_of_busy Uvc.ResultsClear.of_seqStep hclear rfl hrun hu
    refine ⟨hcause, hval, hlen, hcons, fun hd => ?_, fun hd => ?_⟩ <;> rw [hd] at hrun
    · have hdecoding : Decoding s.uvc (startCommand .decode i.bsel s.uvc) := ⟨rfl, rfl, rfl, rfl, rfl, rfl, rfl, rfl, rfl⟩
      exact (seqRun_induction_of_busy (fun h _ => h.of_seqStep) hdecoding rfl hrun hu).outBuf
    · exact (seqRun_induction_of_busy (P := Encoding i.bsel s.uvc) (fun h _ => h.of_seqStep) .issued rfl hrun hu).outBuf

end Sys2Proof.Machine
end

