-- ==== Sys2Proof/Proofs/Stops.lean ====
section
/-! Proof of O14, O23 and O50: the outside's turn with a reset pending, the faults of an unwritten byte, and that the machine stops for
nothing else but an action the interface does not have (10_state.md R26; 41_decoder.md R137; 42_control.md R167;
70_reset_and_hazards.md R200, R203). -/

namespace Sys2Proof.Machine

/-- A step is the turn of whoever has it, with the choice of turn used up (R57, R61). -/
theorem step_eq_takeTurn (s : State) : ∃ l n, step s = takeTurn ((chooseTurn s).1, { s with schedule := l, fresh := n }) := by
  obtain ⟨l, n, hs, _⟩ := chooseTurn_cases s
  exact ⟨l, n, hs ▸ rfl⟩

/-- Settles O14: a reset exists in every interface, so the outside's turn runs it. -/
theorem resetEventClearsTheUvc : Obligations.ResetEventClearsTheUvc := by
  intro s rest he hturn
  obtain ⟨l, n, hstep⟩ := step_eq_takeTurn s
  rw [hturn] at hstep
  have hreset := externalTurn_of_wf (s := { s with schedule := l, fresh := n }) he rfl
  exact ⟨_, hstep.trans hreset, rfl, rfl, rfl, rfl, rfl, rfl, rfl, rfl, rfl, rfl, rfl, fun _ => ⟨rfl, rfl⟩⟩

/-! ## Unwritten bytes -/

section
variable {p : Params} {u : Uvc}

/-- MemRead of an unwritten byte of the input stops (R51, R203). -/
theorem memRead_of_unwritten {i : Nat} (hlt : i < u.inLen.toNat) (hdepth : u.inLen.toNat ≤ p.ibufDepth)
    (h : Memory.read u.inBuf i = none) : memRead p u i = .error (.unwrittenByte .input i) := by
  rw [memRead, if_pos ⟨hlt, hdepth⟩, h]

/-- With budget and input left, DEC_STEP stops where the byte at IDX is unwritten (R137, R203). -/
theorem seqStep_decStep_of_unwritten (hp : u.phase = .decStep) (hspent : budgetSpent u.bud = false) (hlt : u.idx < u.inLen.toNat)
    (hdepth : u.inLen.toNat ≤ p.ibufDepth) (h : Memory.read u.inBuf u.idx = none) :
    seqStep p u = .error (.unwrittenByte .input u.idx) := by
  rw [seqStep_decStep p hp, decStep, if_neg (by simp [hspent]), if_neg hlt.ne, memRead_of_unwritten hlt hdepth h]

end

/-- Settles O23. -/
theorem unwrittenByteFaults : Obligations.UnwrittenByteFaults := by
  refine ⟨fun p u hp hbud hlt hdepth h => ?_, fun s i h => hostRead_of_error (readByte_of_none .input h),
    fun s i h => hostRead_of_error (readByte_of_none .output h)⟩
  exact seqStep_decStep_of_unwritten hp (Bool.eq_false_iff.2 (mt (budgetSpent_iff _).1 hbud)) hlt hdepth h

/-! ## Every answer -/

/-- The byte buffer that a fault names (R32). -/
def Uvc.buffer (u : Uvc) (b : Buffer) : Memory :=
  match b with
  | .input => u.inBuf
  | .output => u.outBuf

/-- What a step can answer in the configuration `p`, with the UVC `u` and the events `es` pending. -/
inductive StepAnswer (p : Params) (u : Uvc) (es : List Event) : Host.Outcome State Fault Refusal → Prop
  | next (t : State) : StepAnswer p u es (.next t)
  /-- A read of an unwritten byte (R203). -/
  | unwritten {b : Buffer} {i : Nat} (h : Memory.read (u.buffer b) i = none) : StepAnswer p u es (.fault (.unwrittenByte b i))
  /-- An action the interface does not have (R167). -/
  | missing {e : Event} {rest : List Event} (he : es = e :: rest) (hwf : e.wf p = false) :
    StepAnswer p u es (.refused (.noSuchHostAction e))

section
variable {p : Params} {u : Uvc} {s : State}

/-- A read of a buffer byte has a value, or the byte is unwritten (R166, R203). -/
theorem readByte_cases (b : Buffer) (m : Memory) (i : Nat) :
    (∃ v, readByte b m i = .ok v) ∨ (Memory.read m i = none ∧ readByte b m i = .error (.unwrittenByte b i)) := by
  cases h : Memory.read m i with
  | none => exact .inr ⟨rfl, readByte_of_none b h⟩
  | some v => exact .inl ⟨_, readByte_of_some b h⟩

/-- A host read has a value, or asks for an unwritten byte (R166, R203). -/
theorem readValue_cases (r : HostRead) (u : Uvc) :
    (∃ v, readValue r u = .ok v) ∨
    ∃ b i, Memory.read (u.buffer b) i = none ∧ readValue r u = .error (.unwrittenByte b i) := by
  cases r with
  | inByte i => exact (readByte_cases .input u.inBuf i).imp_right fun h => ⟨.input, i, h⟩
  | outByte i => exact (readByte_cases .output u.outBuf i).imp_right fun h => ⟨.output, i, h⟩
  | _ => exact .inl ⟨_, rfl⟩

/-- An event that exists stops the machine only as a read of an unwritten byte (R203). -/
theorem runEvent_answer (e : Event) (s : State) (es : List Event) : StepAnswer s.params s.uvc es (runEvent e s) := by
  cases e with
  | write w =>
    obtain ⟨f, hf, _⟩ := hostWrite_cases w s
    rw [runEvent, hf]
    exact .next _
  | read r =>
    obtain ⟨v, hv⟩ | ⟨b, i, hnone, hv⟩ := readValue_cases r s.uvc
    · rw [runEvent, hostRead_of_ok hv]
      exact .next _
    · rw [runEvent, hostRead_of_error hv]
      exact .unwritten hnone
  | poll =>
    rw [runEvent]
    split <;> exact .next _
  | reset => exact .next _

/-- The outside's turn runs its next event, or is refused where that does not exist (R167). -/
theorem externalTurn_answer (s : State) : StepAnswer s.params s.uvc s.events (externalTurn s) := by
  cases hes : s.events with
  | nil =>
    have hidle : externalTurn s = .next s := by simp [externalTurn, hes]
    exact hidle ▸ .next _
  | cons e rest =>
    cases hwf : e.wf s.params with
    | true => exact externalTurn_of_wf hes hwf ▸ runEvent_answer e { s with events := rest } _
    | false => exact externalTurn_of_not_wf hes hwf ▸ .missing rfl hwf

/-- Under the invariant DEC_STEP reads within the input, so it stops only for an unwritten byte (R51, R203). -/
theorem Uvc.Inv.seqStep_decStep_cases (h : u.Inv p) (hp : u.phase = .decStep) :
    (∃ v, seqStep p u = .ok v) ∨
    (Memory.read u.inBuf u.idx = none ∧ seqStep p u = .error (.unwrittenByte .input u.idx)) := by
  obtain ⟨hidx, hdepth, _⟩ := h.dec_step hp
  cases hspent : budgetSpent u.bud with
  | true => exact .inl ⟨_, seqStep_decStep_of_spent hp hspent⟩
  | false =>
    obtain hend | hlt := hidx.eq_or_lt
    · exact .inl ⟨_, seqStep_decStep_of_end hp hspent hend⟩
    · cases hb : Memory.read u.inBuf u.idx with
      | none => exact .inr ⟨rfl, seqStep_decStep_of_unwritten hp hspent hlt hdepth hb⟩
      | some b => exact .inl ⟨_, seqStep_decStep_of_read hp hspent ((memRead_ok_iff ..).2 ⟨hlt, hdepth, hb⟩)⟩

/-- Under the invariant a sequencer step stops only for an unwritten byte of IN (R203): an encode has room for its bytes. -/
theorem Uvc.Inv.seqStep_cases (hwf : p.wf = true) (h : u.Inv p) :
    (∃ v, seqStep p u = .ok v) ∨
    (Memory.read u.inBuf u.idx = none ∧ seqStep p u = .error (.unwrittenByte .input u.idx)) := by
  by_cases hp : u.phase = .decStep
  · exact h.seqStep_decStep_cases hp
  · exact .inl (h.exists_seqStep hwf fun hdec => absurd hdec hp)

theorem State.Inv.sequencerTurn_answer (h : s.Inv) : StepAnswer s.params s.uvc s.events (sequencerTurn s) := by
  obtain ⟨hwf, hinv⟩ := h
  obtain ⟨v, hv⟩ | ⟨hnone, hv⟩ := hinv.seqStep_cases hwf
  · exact sequencerTurn_of_ok hv ▸ .next _
  · exact sequencerTurn_of_error hv ▸ .unwritten (b := .input) hnone

/-- Whoever has the turn, the step answers with a next state or stops for one of the two reasons. -/
theorem State.Inv.step_answer (h : s.Inv) : StepAnswer s.params s.uvc s.events (step s) := by
  obtain ⟨l, n, hstep⟩ := step_eq_takeTurn s
  rw [hstep]
  cases (chooseTurn s).1 with
  | none => exact .next _
  | some a =>
    cases a with
    | external => exact externalTurn_answer { s with schedule := l, fresh := n }
    | sequencer => exact State.Inv.sequencerTurn_answer (s := { s with schedule := l, fresh := n }) h

end

/-- Settles O50. -/
theorem onlyUnwrittenBytesOrMissingActionsStop : Obligations.OnlyUnwrittenBytesOrMissingActionsStop := by
  intro s hinv
  refine ⟨fun f hf => ?_, fun r hr => ?_⟩
  · have hanswer := hf ▸ hinv.step_answer
    cases hanswer with
    | @unwritten b i hnone => exact ⟨b, i, rfl, by cases b <;> exact hnone⟩
  · have hanswer := hr ▸ hinv.step_answer
    cases hanswer with
    | missing he hwf => exact ⟨_, _, he, hwf, rfl⟩

end Sys2Proof.Machine
end

