-- ==== Sys2Proof/Proofs/AfterReset.lean ====
section
/-! Proof of O16: after reset the value is 0, which takes one byte, the bound in MAX is 0 and the input is empty
(70_reset_and_hazards.md R200, R205). -/

namespace Sys2Proof.Machine

/-- An encode of the value 0 within its bound completes in two steps with the one byte 0x00 (R106, R107, R205). -/
theorem startCommand_encode_reset_completes {p : Params} (hwf : p.wf = true) {b : BSel}
    (hfits : exceedsBound (boundOf b Uvc.reset.maxReg) (nbytes Uvc.reset.valueIn) = false) :
    ∃ v, CompletesAfter p 2 (startCommand .encode b Uvc.reset) v ∧ v.state = .ok ∧ v.outLen = 1 ∧ v.outBuf = [(0, 0x00)] := by
  have hbyte : pack (cont 0 (nbytes 0)) (group 0 (nbytes 0 - 1)) = 0x00 := by decide
  have hroom : 0 < p.obufDepth := (nbytes_pos 0).trans (Params.nbytes_le_obufDepth hwf (by positivity))
  have hsize := (seqStep_encSize p (u := startCommand .encode b Uvc.reset) rfl).trans (congrArg Except.ok (encSizeStep_of_fits hfits))
  obtain ⟨hn, _⟩ | ⟨_, hemit⟩ := encEmitStep_cases (p := p)
    (u := { startCommand .encode b Uvc.reset with nb := nbytes Uvc.reset.valueIn, idx := 0, phase := .encEmit }) hroom
  · exact absurd rfl hn
  · exact ⟨_, .cons rfl hsize (.cons rfl ((seqStep_encEmit p rfl).trans hemit) (.zero p nofun)), rfl, rfl, congrArg (Memory.write [] 0) hbyte⟩

/-- With budget left, a decode of the empty input fails at its end (R137, R205). -/
theorem exec_decode_reset_fails {p : Params} {i : Instr} (hi : i.dir = .decode)
    (hspent : budgetSpent (boundOf i.bsel Uvc.reset.maxReg) = false) :
    ∃ t v, exec i (State.resetWith p) = .next t ∧ CompletesAfter p 1 t.uvc v ∧ v.state = .err ∧ v.cause = .decTrunc := by
  obtain ⟨t, v, ht, hc, ⟨hstate, hcause, _⟩, _⟩ := exec_decode_completes (s := State.resetWith p) (l := []) hi nofun (Nat.zero_le _) rfl
    (decodeLoop_nil_of_unspent p 0 0 hspent) fun _ hk => absurd hk (Nat.not_lt_zero _)
  exact ⟨t, v, ht, hc, hstate, hcause⟩

/-- Settles O16. -/
theorem commandsRightAfterReset : Obligations.CommandsRightAfterReset := by
  rintro p s hwf rfl
  have hfree : (State.resetWith p).uvc.state ≠ .busy := nofun
  obtain ⟨⟨te, ve, hte, _, hce, hse, hcause, _⟩, hdec⟩ := zeroBoundFails (State.resetWith p) hfree rfl
  obtain ⟨td, vd, htd, _, hcd, hsd, hcaused, _⟩ := hdec (Nat.zero_le _)
  refine ⟨⟨te, ve, hte, hce, hse, hcause⟩, fun i hi => ?_, ⟨td, vd, htd, hcd, hsd, hcaused⟩, fun i hi => ?_⟩
  · obtain rfl | rfl := hi
    · obtain ⟨v, hv⟩ := startCommand_encode_reset_completes hwf (b := .unbounded) rfl
      exact ⟨_, v, exec_starts hfree nofun, hv⟩
    · obtain ⟨v, hv⟩ := startCommand_encode_reset_completes hwf (b := .fixed5) rfl
      exact ⟨_, v, exec_starts hfree nofun, hv⟩
  · obtain rfl | rfl := hi <;> exact exec_decode_reset_fails rfl rfl

end Sys2Proof.Machine
end
